-- ==== Sys2Proof/Word.lean ====
section
/-! DEFINITION. The words of the CHIP-8 core: bytes, 16-bit words, 12-bit addresses, register numbers.
All values are unsigned (00_scope.md R9). -/

namespace Sys2Proof

/-- A byte: a general register, a timer, a memory element (10_state.md R20, R28, R32). -/
abbrev Byte := BitVec 8

/-- A 16-bit word: an instruction word, `pc`, `I`, a stack slot (00_scope.md R7). -/
abbrev Word := BitVec 16

/-- The 12-bit address immediate NNN (30_encoding.md R91). -/
abbrev Addr12 := BitVec 12

/-- The number of a general register, a 4-bit field (10_state.md R20). -/
abbrev Reg := Fin 16

/-- The number of a key slot, 0x0 to 0xF (10_state.md R31). -/
abbrev Key := Fin 16

/-- VF, the register that also receives the flag output (10_state.md R21). -/
abbrev VF : Reg := 15

end Sys2Proof
end

