-- ==== Sys2Proof/Syntax.lean ====
section
/-! DEFINITION. The 35 instructions, one constructor per row of spec/opcode_table.json
(30_encoding.md R94). Operands have the width of their field (R91), so no operand can be out of range. -/

namespace Sys2Proof

/-- One CHIP-8 instruction. `x`, `y` are register numbers, `nn` the 8-bit and `nnn` the 12-bit
immediate, `n` the sprite's row count. -/
inductive Instr where
  /-- 0000 -/
  | nop
  /-- 00E0 -/
  | cls
  /-- 00EE -/
  | ret
  /-- 1NNN -/
  | jp (nnn : Addr12)
  /-- 2NNN -/
  | call (nnn : Addr12)
  /-- 3XNN -/
  | seImm (x : Reg) (nn : Byte)
  /-- 4XNN -/
  | sneImm (x : Reg) (nn : Byte)
  /-- 5XY0 -/
  | seReg (x y : Reg)
  /-- 6XNN -/
  | ldImm (x : Reg) (nn : Byte)
  /-- 7XNN -/
  | addImm (x : Reg) (nn : Byte)
  /-- 8XY0 -/
  | ldReg (x y : Reg)
  /-- 8XY1 -/
  | or (x y : Reg)
  /-- 8XY2 -/
  | and (x y : Reg)
  /-- 8XY3 -/
  | xor (x y : Reg)
  /-- 8XY4 -/
  | addReg (x y : Reg)
  /-- 8XY5 -/
  | sub (x y : Reg)
  /-- 8XY6; `y` is decoded and unused (30_encoding.md R98) -/
  | shr (x y : Reg)
  /-- 8XY7 -/
  | subn (x y : Reg)
  /-- 8XYE; `y` is decoded and unused (30_encoding.md R98) -/
  | shl (x y : Reg)
  /-- 9XY0 -/
  | sneReg (x y : Reg)
  /-- ANNN -/
  | ldI (nnn : Addr12)
  /-- BNNN -/
  | jpV0 (nnn : Addr12)
  /-- CXNN -/
  | rnd (x : Reg) (nn : Byte)
  /-- DXYN -/
  | drw (x y : Reg) (n : Fin 16)
  /-- EX9E -/
  | skp (x : Reg)
  /-- EXA1 -/
  | sknp (x : Reg)
  /-- FX07 -/
  | ldVxDt (x : Reg)
  /-- FX0A -/
  | ldVxK (x : Reg)
  /-- FX15 -/
  | ldDtVx (x : Reg)
  /-- FX18 -/
  | ldStVx (x : Reg)
  /-- FX1E -/
  | addI (x : Reg)
  /-- FX29 -/
  | ldF (x : Reg)
  /-- FX33 -/
  | ldB (x : Reg)
  /-- FX55 -/
  | ldStore (x : Reg)
  /-- FX65 -/
  | ldLoad (x : Reg)
  deriving DecidableEq, Repr

end Sys2Proof
end

