-- ==== Sys2Proof/WellFormed.lean ====
section
/-! DEFINITION. Well-formedness: every operand fits the field its format gives it (30_encoding.md R91,
R92). The operand types already carry the bounds; this file states the check on plain numbers, and
Laws/Encoding.lean proves that every term of `Instr` passes it. -/

namespace Sys2Proof

/-- One operand as a plain number, with the width in bits of its field. -/
structure Operand where
  value : Nat
  width : Nat
  deriving DecidableEq, Repr

/-- The value fits its field. -/
def Operand.fits (o : Operand) : Bool := o.value < 2 ^ o.width

/-- A register field X or Y: 4 bits. -/
def Operand.reg (r : Nat) : Operand := ⟨r, 4⟩
/-- The row count N: 4 bits. -/
def Operand.rows (n : Nat) : Operand := ⟨n, 4⟩
/-- The immediate NN: 8 bits. -/
def Operand.imm8 (nn : Nat) : Operand := ⟨nn, 8⟩
/-- The address NNN: 12 bits. -/
def Operand.addr12 (nnn : Nat) : Operand := ⟨nnn, 12⟩

/-- The operands of an instruction, in the order of its encoding (30_encoding.md R92). -/
def Instr.operands : Instr → List Operand
  | .nop | .cls | .ret => []
  | .jp a | .call a | .ldI a | .jpV0 a => [.addr12 a.toNat]
  | .seImm x k | .sneImm x k | .ldImm x k | .addImm x k | .rnd x k => [.reg x, .imm8 k.toNat]
  | .seReg x y | .ldReg x y | .or x y | .and x y | .xor x y | .addReg x y | .sub x y | .shr x y
  | .subn x y | .shl x y | .sneReg x y => [.reg x, .reg y]
  | .drw x y n => [.reg x, .reg y, .rows n]
  | .skp x | .sknp x | .ldVxDt x | .ldVxK x | .ldDtVx x | .ldStVx x | .addI x | .ldF x | .ldB x
  | .ldStore x | .ldLoad x => [.reg x]

/-- Every operand of the instruction fits its field. -/
def Instr.wellFormed (i : Instr) : Bool := i.operands.all Operand.fits

end Sys2Proof
end

