-- ==== Sys2Proof/Decode.lean ====
section
/-! DEFINITION. The decoder, total on any bytes and rejecting by name (30_encoding.md R94 to R99), the
encoder, and the opcode table's match and mask words, each written from the spec's own table. -/

namespace Sys2Proof

/-- Why the decoder rejects its input. -/
inductive Reject where
  /-- fewer than the two bytes of an instruction (the fetch never gives these; notes/assumptions/10.md) -/
  | truncated
  /-- the word matches no row of the decode map (30_encoding.md R97) -/
  | illegal (w : Word)
  deriving DecidableEq, Repr

/-! ## Byte order and fields -/

/-- A word from its two bytes, big-endian: the byte at the lower address holds bits 15:8
(20_memory.md R65). -/
def wordOfBytes (hi lo : Byte) : Word := hi ++ lo

/-- The byte stored at the lower address. -/
def highByte (w : Word) : Byte := w.extractLsb' 8 8
/-- The byte stored at the higher address. -/
def lowByte (w : Word) : Byte := w.extractLsb' 0 8

/-- op, bits 15:12 (30_encoding.md R91). -/
def fieldOp (w : Word) : BitVec 4 := w.extractLsb' 12 4
/-- x, bits 11:8. -/
def fieldX (w : Word) : Reg := (w.extractLsb' 8 4).toFin
/-- y, bits 7:4. -/
def fieldY (w : Word) : Reg := (w.extractLsb' 4 4).toFin
/-- n, bits 3:0. -/
def fieldN (w : Word) : Fin 16 := (w.extractLsb' 0 4).toFin
/-- nn, bits 7:0. -/
def fieldNN (w : Word) : Byte := w.extractLsb' 0 8
/-- nnn, bits 11:0. -/
def fieldNNN (w : Word) : Addr12 := w.extractLsb' 0 12

/-! ## The decoder -/

/-- Group 0x0, decoded on the whole word (30_encoding.md R95). -/
def decodeGroup0 (w : Word) : Option Instr :=
  if w = 0x0000 then some .nop
  else if w = 0x00E0 then some .cls
  else if w = 0x00EE then some .ret
  else none

/-- Group 0x8, decoded on the low nibble (30_encoding.md R96). -/
def decodeGroup8 (w : Word) : Option Instr :=
  match fieldN w with
  | 0x0 => some (.ldReg (fieldX w) (fieldY w))
  | 0x1 => some (.or (fieldX w) (fieldY w))
  | 0x2 => some (.and (fieldX w) (fieldY w))
  | 0x3 => some (.xor (fieldX w) (fieldY w))
  | 0x4 => some (.addReg (fieldX w) (fieldY w))
  | 0x5 => some (.sub (fieldX w) (fieldY w))
  | 0x6 => some (.shr (fieldX w) (fieldY w))
  | 0x7 => some (.subn (fieldX w) (fieldY w))
  | 0xE => some (.shl (fieldX w) (fieldY w))
  | _ => none

/-- Group 0xE, decoded on the low byte (30_encoding.md R96). -/
def decodeGroupE (w : Word) : Option Instr :=
  if fieldNN w = 0x9E then some (.skp (fieldX w))
  else if fieldNN w = 0xA1 then some (.sknp (fieldX w))
  else none

/-- Group 0xF, decoded on the low byte (30_encoding.md R96). -/
def decodeGroupF (w : Word) : Option Instr :=
  if fieldNN w = 0x07 then some (.ldVxDt (fieldX w))
  else if fieldNN w = 0x0A then some (.ldVxK (fieldX w))
  else if fieldNN w = 0x15 then some (.ldDtVx (fieldX w))
  else if fieldNN w = 0x18 then some (.ldStVx (fieldX w))
  else if fieldNN w = 0x1E then some (.addI (fieldX w))
  else if fieldNN w = 0x29 then some (.ldF (fieldX w))
  else if fieldNN w = 0x33 then some (.ldB (fieldX w))
  else if fieldNN w = 0x55 then some (.ldStore (fieldX w))
  else if fieldNN w = 0x65 then some (.ldLoad (fieldX w))
  else none

/-- Groups 0x5 and 0x9 accept only the low nibble 0 (30_encoding.md R96). -/
def decodeLowNibbleZero (w : Word) (i : Instr) : Option Instr :=
  if fieldN w = 0 then some i else none

/-- The instruction of a word, by `op` and then the group's own bits (30_encoding.md R94). -/
def decodeWord? (w : Word) : Option Instr :=
  match fieldOp w with
  | 0x0#4 => decodeGroup0 w
  | 0x1#4 => some (.jp (fieldNNN w))
  | 0x2#4 => some (.call (fieldNNN w))
  | 0x3#4 => some (.seImm (fieldX w) (fieldNN w))
  | 0x4#4 => some (.sneImm (fieldX w) (fieldNN w))
  | 0x5#4 => decodeLowNibbleZero w (.seReg (fieldX w) (fieldY w))
  | 0x6#4 => some (.ldImm (fieldX w) (fieldNN w))
  | 0x7#4 => some (.addImm (fieldX w) (fieldNN w))
  | 0x8#4 => decodeGroup8 w
  | 0x9#4 => decodeLowNibbleZero w (.sneReg (fieldX w) (fieldY w))
  | 0xA#4 => some (.ldI (fieldNNN w))
  | 0xB#4 => some (.jpV0 (fieldNNN w))
  | 0xC#4 => some (.rnd (fieldX w) (fieldNN w))
  | 0xD#4 => some (.drw (fieldX w) (fieldY w) (fieldN w))
  | 0xE#4 => decodeGroupE w
  | 0xF#4 => decodeGroupF w
  | _ => none

/-- Decode one word, or reject it by name (30_encoding.md R97, R99). -/
def decodeWord (w : Word) : Except Reject Instr :=
  match decodeWord? w with
  | some i => .ok i
  | none => .error (.illegal w)

/-- Decode the instruction at the head of a byte list and return the bytes after it; one length, two
bytes (30_encoding.md R90). -/
def decode : List Byte → Except Reject (Instr × List Byte)
  | hi :: lo :: rest =>
    match decodeWord (wordOfBytes hi lo) with
    | .ok i => .ok (i, rest)
    | .error e => .error e
  | _ => .error .truncated

/-! ## The encoder, from the formats of 30_encoding.md R92 and the table of R94 -/

/-- A register number as its 4-bit field. -/
def regBits (r : Fin 16) : BitVec 4 := BitVec.ofFin r

/-- Format A: op, then the 12-bit address. -/
def formatA (op : BitVec 4) (a : Addr12) : Word := op ++ a
/-- Format XK: op, X, then the byte; format X is the same layout with the byte fixed. -/
def formatXK (op : BitVec 4) (x : Reg) (k : Byte) : Word := op ++ regBits x ++ k
/-- Format XYN: op, X, Y, N; format XY is the same layout with the low nibble fixed. -/
def formatXYN (op : BitVec 4) (x y : Reg) (n : BitVec 4) : Word := op ++ regBits x ++ regBits y ++ n

/-- The word of an instruction. -/
def encode : Instr → Word
  | .nop => 0x0000
  | .cls => 0x00E0
  | .ret => 0x00EE
  | .jp a => formatA 0x1 a
  | .call a => formatA 0x2 a
  | .seImm x k => formatXK 0x3 x k
  | .sneImm x k => formatXK 0x4 x k
  | .seReg x y => formatXYN 0x5 x y 0x0
  | .ldImm x k => formatXK 0x6 x k
  | .addImm x k => formatXK 0x7 x k
  | .ldReg x y => formatXYN 0x8 x y 0x0
  | .or x y => formatXYN 0x8 x y 0x1
  | .and x y => formatXYN 0x8 x y 0x2
  | .xor x y => formatXYN 0x8 x y 0x3
  | .addReg x y => formatXYN 0x8 x y 0x4
  | .sub x y => formatXYN 0x8 x y 0x5
  | .shr x y => formatXYN 0x8 x y 0x6
  | .subn x y => formatXYN 0x8 x y 0x7
  | .shl x y => formatXYN 0x8 x y 0xE
  | .sneReg x y => formatXYN 0x9 x y 0x0
  | .ldI a => formatA 0xA a
  | .jpV0 a => formatA 0xB a
  | .rnd x k => formatXK 0xC x k
  | .drw x y n => formatXYN 0xD x y (regBits n)
  | .skp x => formatXK 0xE x 0x9E
  | .sknp x => formatXK 0xE x 0xA1
  | .ldVxDt x => formatXK 0xF x 0x07
  | .ldVxK x => formatXK 0xF x 0x0A
  | .ldDtVx x => formatXK 0xF x 0x15
  | .ldStVx x => formatXK 0xF x 0x18
  | .addI x => formatXK 0xF x 0x1E
  | .ldF x => formatXK 0xF x 0x29
  | .ldB x => formatXK 0xF x 0x33
  | .ldStore x => formatXK 0xF x 0x55
  | .ldLoad x => formatXK 0xF x 0x65

/-- The two bytes of an instruction as memory holds them, the high byte first (20_memory.md R65). -/
def encodeBytes (i : Instr) : List Byte := [highByte (encode i), lowByte (encode i)]

/-! ## The opcode table's match and mask words (30_encoding.md R94) -/

/-- The mask of the instruction's row. -/
def rowMask : Instr → Word
  | .nop | .cls | .ret => 0xFFFF
  | .jp _ | .call _ | .seImm _ _ | .sneImm _ _ | .ldImm _ _ | .addImm _ _ | .ldI _ | .jpV0 _
  | .rnd _ _ | .drw _ _ _ => 0xF000
  | .seReg _ _ | .ldReg _ _ | .or _ _ | .and _ _ | .xor _ _ | .addReg _ _ | .sub _ _ | .shr _ _
  | .subn _ _ | .shl _ _ | .sneReg _ _ => 0xF00F
  | .skp _ | .sknp _ | .ldVxDt _ | .ldVxK _ | .ldDtVx _ | .ldStVx _ | .addI _ | .ldF _ | .ldB _
  | .ldStore _ | .ldLoad _ => 0xF0FF

/-- The match word of the instruction's row. -/
def rowMatch : Instr → Word
  | .nop => 0x0000 | .cls => 0x00E0 | .ret => 0x00EE
  | .jp _ => 0x1000 | .call _ => 0x2000 | .seImm _ _ => 0x3000 | .sneImm _ _ => 0x4000
  | .seReg _ _ => 0x5000 | .ldImm _ _ => 0x6000 | .addImm _ _ => 0x7000
  | .ldReg _ _ => 0x8000 | .or _ _ => 0x8001 | .and _ _ => 0x8002 | .xor _ _ => 0x8003
  | .addReg _ _ => 0x8004 | .sub _ _ => 0x8005 | .shr _ _ => 0x8006 | .subn _ _ => 0x8007
  | .shl _ _ => 0x800E | .sneReg _ _ => 0x9000 | .ldI _ => 0xA000 | .jpV0 _ => 0xB000
  | .rnd _ _ => 0xC000 | .drw _ _ _ => 0xD000 | .skp _ => 0xE09E | .sknp _ => 0xE0A1
  | .ldVxDt _ => 0xF007 | .ldVxK _ => 0xF00A | .ldDtVx _ => 0xF015 | .ldStVx _ => 0xF018
  | .addI _ => 0xF01E | .ldF _ => 0xF029 | .ldB _ => 0xF033 | .ldStore _ => 0xF055
  | .ldLoad _ => 0xF065

/-- The 35 (match, mask) pairs of 30_encoding.md R94, in the order of spec/opcode_table.json. -/
def opcodeRows : List (Word × Word) :=
  [(0x0000, 0xFFFF), (0x00E0, 0xFFFF), (0x00EE, 0xFFFF), (0x1000, 0xF000), (0x2000, 0xF000),
   (0x3000, 0xF000), (0x4000, 0xF000), (0x5000, 0xF00F), (0x6000, 0xF000), (0x7000, 0xF000),
   (0x8000, 0xF00F), (0x8001, 0xF00F)] ++
  [(0x8002, 0xF00F), (0x8003, 0xF00F), (0x8004, 0xF00F), (0x8005, 0xF00F), (0x8006, 0xF00F),
   (0x8007, 0xF00F), (0x800E, 0xF00F), (0x9000, 0xF00F), (0xA000, 0xF000), (0xB000, 0xF000),
   (0xC000, 0xF000), (0xD000, 0xF000)] ++
  [(0xE09E, 0xF0FF), (0xE0A1, 0xF0FF), (0xF007, 0xF0FF), (0xF00A, 0xF0FF), (0xF015, 0xF0FF),
   (0xF018, 0xF0FF), (0xF01E, 0xF0FF), (0xF029, 0xF0FF), (0xF033, 0xF0FF), (0xF055, 0xF0FF),
   (0xF065, 0xF0FF)]

/-! ## The host's question -/

/-- What the decoder reads from an instruction whose `nbits` bits are `w`, numbered as
spec/opcode_table.json numbers them: the one word is laid out big-endian and decoded from its bytes. -/
def decodeTableWord (nbits w : Nat) : Option Instr :=
  let word : Word := BitVec.ofNat 16 (w % 2 ^ nbits)
  match decode [highByte word, lowByte word] with
  | .ok (i, _) => some i
  | .error _ => none

end Sys2Proof
end

