-- ==== Sys2Proof/Config.lean ====
section
/-! DEFINITION. What is fixed outside the machine's state. The sizes of the core are architectural constants
(00_scope.md R7) and stand in the types of Syntax.lean and Machine/State.lean, so the one entry here is the
free value of 00_scope.md R8. (The parameter FONT is carried by the memory, notes/assumptions/1.md.) -/

namespace Sys2Proof.Config

/-- The `n`-th random draw of the environment, one 8-bit value with no law on it (42_alu.md R212, D11).
A FREE VALUE: it has no body, so no proof can see what it is (notes/assumptions/2.md). -/
opaque rnd : Nat → Byte

end Sys2Proof.Config
end

