-- ==== Sys2Proof/Machine/Flags.lean ====
section
/-! DEFINITION. The flag computations: what the flag-writing instructions put into VF (42_alu.md R200,
44_display.md R303). Each is a byte, 0 or 1. -/

namespace Sys2Proof.Machine

/-- A condition as a flag byte: `(c) ? 1 : 0`. -/
def flagByte (c : Bool) : Byte := if c then 1 else 0

/-- Carry of 8XY4: 1 exactly when the unbounded sum exceeds 0xFF (42_alu.md R207). -/
def carryFlag (a b : Byte) : Byte := flagByte (0xFF < a.toNat + b.toNat)

/-- Inverted borrow of `a - b`: 1 exactly when `a >= b` (42_alu.md R208, R210). -/
def notBorrowFlag (a b : Byte) : Byte := flagByte (b.toNat ≤ a.toNat)

/-- The bit a right shift drops, `a & 1` (42_alu.md R209). -/
def droppedLowBit (a : Byte) : Byte := a &&& 1

/-- The bit a left shift drops, `(a >> 7) & 1` (42_alu.md R211). -/
def droppedHighBit (a : Byte) : Byte := (a >>> 7) &&& 1

end Sys2Proof.Machine
end

