-- ==== Sys2Proof/Machine/Operands.lean ====
section
/-! DEFINITION. The operand forms and the values computed from them (30_encoding.md R93): zero extension,
the sums of the ALU, the BCD digits, the glyph address, the offset jump. -/

namespace Sys2Proof.Machine

/-- NNN where it is written to `pc` or `I`: zero-extended to 16 bits (30_encoding.md R93). -/
def zext16 (nnn : Addr12) : Word := nnn.setWidth 16

/-- `(a + b) mod 256` (42_alu.md R202, R207). -/
def addMod256 (a b : Byte) : Byte := BitVec.ofNat 8 (a.toNat + b.toNat)

/-- `(a - b) mod 256`, as `a + 256 - b` reduced (42_alu.md R208). -/
def subMod256 (a b : Byte) : Byte := BitVec.ofNat 8 (a.toNat + 256 - b.toNat)

/-- `a >> 1` (42_alu.md R209). -/
def shiftRight1 (a : Byte) : Byte := a >>> 1

/-- `(a << 1) mod 256` (42_alu.md R211). -/
def shiftLeft1 (a : Byte) : Byte := a <<< 1

/-- `rnd & nn`: the draw under the mask (42_alu.md R212). -/
def maskedDraw (draw nn : Byte) : Byte := draw &&& nn

/-- `(I + V[x]) mod 65536` (43_index_memory.md R251). -/
def indexSum (i : Word) (b : Byte) : Word := BitVec.ofNat 16 (i.toNat + b.toNat)

/-- `V[x] * 5`, the address of a glyph; no masking, no reduction (43_index_memory.md R252). -/
def glyphAddr (b : Byte) : Word := BitVec.ofNat 16 (b.toNat * 5)

/-- `zext_16(V[0]) + zext_16(nnn)`, at most 0x10FE (41_control_flow.md R159). -/
def offsetTarget (v0 : Byte) (nnn : Addr12) : Word := BitVec.ofNat 16 (v0.toNat + nnn.toNat)

/-- Hundreds, tens and ones of a byte (43_index_memory.md R253). -/
def bcdDigits (b : Byte) : List Byte :=
  [BitVec.ofNat 8 (b.toNat / 100), BitVec.ofNat 8 (b.toNat / 10 % 10), BitVec.ofNat 8 (b.toNat % 10)]

/-- The key slot a register value names, or none when it exceeds 0xF (45_keys_timers.md R330). -/
def keyOperand (b : Byte) : Option Key :=
  if h : b.toNat ≤ 0xF then some ⟨b.toNat, by omega⟩ else none

/-- A byte as a key number (45_keys_timers.md R332). -/
def keyByte (k : Key) : Byte := BitVec.ofNat 8 k.val

end Sys2Proof.Machine
end

