-- ==== Sys2Proof/Machine/State.lean ====
section
/-! DEFINITION. The state of the core (10_state.md), the host's operations, and the state after reset. -/

namespace Sys2Proof.Machine

/-! ## The parts of the state -/

/-- RUNNING or HALTED (10_state.md R34). -/
inductive RunStatus where
  | running
  | halted
  deriving DecidableEq, Repr

/-- The cause of a fault (60_exceptions.md R370). -/
inductive Cause where
  | none
  | illegalInstruction
  | stackOverflow
  | stackUnderflow
  | dataOutOfRange
  | fetchOutOfRange
  | keyIndexOutOfRange
  deriving DecidableEq, Repr

/-- The fault record (60_exceptions.md R372). -/
structure FaultRecord where
  cause    : Cause
  /-- `inst_addr`, the address the instruction was fetched from -/
  instAddr : Word
  /-- the instruction word, or NONE when none was read -/
  word     : Option Word
  /-- `info`, the last column of R370 -/
  info     : BitVec 17
  deriving DecidableEq, Repr

/-- The cleared record: cause NONE, other fields 0, no word (70_reset_and_hazards.md R420). -/
def FaultRecord.cleared : FaultRecord := ⟨.none, 0, none, 0⟩

/-- The memory array M[0x000..0xFFF] (10_state.md R28): the parameter FONT, and the bytes that differ from
the reset contents as (address, byte) pairs in canonical form (`Memory.wf`, notes/assumptions/8.md). -/
structure Memory where
  font  : Vector Byte 80
  cells : List Host.Cell
  deriving DecidableEq, Repr

/-- The display buffer, a 64 x 32 grid held by rows: `d[y][x]` is column x of row y (10_state.md R30). -/
abbrev Display := Vector (Vector Bool 64) 32

/-- The display with every pixel off. -/
def Display.clear : Display := Vector.replicate 32 (Vector.replicate 64 false)

/-- The operations of the host interface (40_cycle_and_interface.md R120). -/
inductive HostOp where
  | reset
  | load (data : List Byte)
  | key (index : Nat) (pressed : Bool)
  | step
  | timerTick
  | readDisplay
  | readSound
  | readStatus
  deriving DecidableEq, Repr

/-! ## The state -/

/-- The whole state of the core (10_state.md R37), and the model's own fields `draws` and `pending`
(with `mem.font`, the carriers of the three parameters of 00_scope.md R8). -/
structure State where
  /-- V[0] to V[15] -/
  v       : Vector Byte 16
  /-- the program counter -/
  pc      : Word
  /-- I, the index register -/
  i       : Word
  /-- S[0] to S[15] -/
  stack   : Vector Word 16
  /-- SP, the number of occupied slots, 0 to 16 -/
  sp      : Fin 17
  /-- M and the parameter FONT -/
  mem     : Memory
  /-- D -/
  display : Display
  /-- K[0] to K[15] -/
  keys    : Vector Bool 16
  /-- DT -/
  dt      : Byte
  /-- ST -/
  st      : Byte
  status  : RunStatus
  fault   : FaultRecord
  /-- the model's own: how many random draws have been consumed (notes/assumptions/2.md) -/
  draws   : Nat
  /-- the model's own: the host's operations not yet performed, oldest first (notes/assumptions/3.md) -/
  pending : List HostOp
  deriving DecidableEq, Repr

/-- No step ends in a model fault: every fault of the spec is taken, as a HALTED next state
(60_exceptions.md R374, notes/assumptions/6.md). So there is no constructor, and nobody raises one: safe. -/
inductive Fault where
  deriving DecidableEq, Repr

/-- Why the model has no meaning for an instruction. -/
inductive Refusal where
  /-- raised by `exec` alone, for an instruction that has no meaning yet (no arm does so now): safe -/
  | notModelled (mnemonic : String)
  deriving DecidableEq, Repr

/-- How every meaning and every step ends. -/
abbrev Result := Host.Outcome State Fault Refusal

/-! ## Reset -/

/-- The state after RESET or construction, for a given FONT (10_state.md R37, 70_reset_and_hazards.md R420). -/
def State.resetWith (font : Vector Byte 80) : State where
  v       := Vector.replicate 16 0
  pc      := 0x200
  i       := 0
  stack   := Vector.replicate 16 0
  sp      := 0
  mem     := ⟨font, []⟩
  display := Display.clear
  keys    := Vector.replicate 16 false
  dt      := 0
  st      := 0
  status  := .running
  fault   := FaultRecord.cleared
  draws   := 0
  pending := []

/-- The machine right after reset, under the default FONT (notes/assumptions/1.md). -/
def State.reset : State := State.resetWith defaultFont

end Sys2Proof.Machine
end

