-- ==== Sys2Proof/Machine/Ops.lean ====
section
/-! DEFINITION. The named operations over memory, registers, stack, display and keys; fetching; taking a
fault. Every meaning is written over these. -/

namespace Sys2Proof.Machine

/-! ## Memory (20_memory.md) -/

/-- What an address that is not listed reads as: its reset contents, FONT at 0x000 to 0x04F and 0x00 above
(10_state.md R28). -/
def Memory.unlisted (m : Memory) (a : Nat) : Byte :=
  if h : a < 80 then m.font[a] else 0

/-- `MemRead(a, 1)`; the rules give it a meaning for `a <= 0xFFF` only (00_scope.md R11), and every caller
has checked that. -/
def Memory.read (m : Memory) (a : Nat) : Byte :=
  match m.cells.find? (fun c => c.1 == a) with
  | some c => c.2
  | none => m.unlisted a

/-- Put a cell into a list of cells sorted by address. -/
def insertCell (c : Host.Cell) : List Host.Cell → List Host.Cell
  | [] => [c]
  | d :: ds => if c.1 < d.1 then c :: d :: ds else d :: insertCell c ds

/-- `MemWrite(a, 1, b)`. A byte equal to the reset contents is not listed, so equal memories are equal
data (notes/assumptions/8.md). -/
def Memory.write (m : Memory) (a : Nat) (b : Byte) : Memory :=
  let others := m.cells.filter (fun c => c.1 != a)
  { m with cells := if b = m.unlisted a then others else insertCell (a, b) others }

/-- The bytes at `a, a + 1, ..., a + n - 1`, ascending. -/
def Memory.readBytes (m : Memory) (a n : Nat) : List Byte :=
  (List.range n).map fun k => m.read (a + k)

/-- Write the bytes at `a, a + 1, ...`, ascending. -/
def Memory.writeBytes (m : Memory) (a : Nat) : List Byte → Memory
  | [] => m
  | b :: bs => (m.write a b).writeBytes (a + 1) bs

/-- The canonical form: addresses strictly rising and inside the memory, and no byte listed that an
unlisted address would read as. -/
def Memory.wf (m : Memory) : Bool :=
  decide (m.cells.Pairwise fun c d => c.1 < d.1) &&
    m.cells.all fun c => decide (c.1 < 0x1000) && c.2 != m.unlisted c.1

/-! ## Registers -/

/-- `V[x]`. -/
def State.readV (s : State) (x : Reg) : Byte := s.v[x]

/-- `V[x] <- b`. -/
def State.writeV (s : State) (x : Reg) (b : Byte) : State := { s with v := s.v.set x b }

/-- `pc <- a`. -/
def State.setPc (s : State) (a : Word) : State := { s with pc := a }

/-- The fetch's `pc <- pc + 2` (40_cycle_and_interface.md R124). -/
def State.advance (s : State) : State := s.setPc (s.pc + 2)

/-- Skip: a further `pc <- pc + 2` when the condition holds (41_control_flow.md R150). -/
def State.skipIf (s : State) (c : Bool) : State := if c then s.setPc (s.pc + 2) else s

/-- `I <- a`. -/
def State.setI (s : State) (a : Word) : State := { s with i := a }

/-- `DT <- b`. -/
def State.setDT (s : State) (b : Byte) : State := { s with dt := b }

/-- `ST <- b`. -/
def State.setST (s : State) (b : Byte) : State := { s with st := b }

/-- The registers V0 to Vx as a list, V0 first (43_index_memory.md R254). -/
def State.regsUpTo (s : State) (x : Reg) : List Byte := s.v.toList.take (x.val + 1)

/-- The register file with V0 to Vx loaded from the bytes at `a` (43_index_memory.md R255). -/
def State.loadRegs (s : State) (a : Nat) (x : Reg) : State :=
  { s with v := Vector.ofFn fun r : Fin 16 => if r ≤ x then s.mem.read (a + r.val) else s.v[r] }

/-- Store bytes to memory from `a` on, ascending. -/
def State.storeBytes (s : State) (a : Nat) (bs : List Byte) : State :=
  { s with mem := s.mem.writeBytes a bs }

/-! ## Stack (10_state.md R26, R27) -/

/-- `push(w)`, or none when the stack is full. -/
def State.push? (s : State) (w : Word) : Option State :=
  if h : s.sp.val < 16 then
    some { s with stack := s.stack.set s.sp.val w, sp := ⟨s.sp.val + 1, Nat.succ_lt_succ h⟩ }
  else none

/-- `pop()`: the popped word and the state after it, or none when the stack is empty. The slot is not
cleared. -/
def State.pop? (s : State) : Option (Word × State) :=
  if h : s.sp.val = 0 then none
  else
    have top : s.sp.val - 1 < 16 := by have := s.sp.isLt; omega
    some (s.stack[s.sp.val - 1], { s with sp := ⟨s.sp.val - 1, by omega⟩ })

/-! ## Keys -/

/-- `K[k]`. -/
def State.readKey (s : State) (k : Key) : Bool := s.keys[k]

/-- The lowest-indexed pressed key, if any (45_keys_timers.md R332). -/
def State.lowestPressed (s : State) : Option Key := (List.finRange 16).find? fun k => s.readKey k

/-! ## The random draw -/

/-- The state after one draw is consumed; the draw itself is `Config.rnd s.draws` (42_alu.md R212). -/
def State.consumeDraw (s : State) : State := { s with draws := s.draws + 1 }

/-! ## The display (44_display.md) -/

/-- `D[y][x]`. -/
def Display.pixel (d : Display) (y : Fin 32) (x : Fin 64) : Bool := d[y][x]

/-- `D[y][x] <- D[y][x] xor 1`. -/
def Display.flip (d : Display) (y : Fin 32) (x : Fin 64) : Display :=
  d.set y (d[y].set x (!d[y][x]))

/-- Rows wrap modulo 32. -/
def wrapRow (n : Nat) : Fin 32 := Fin.ofNat 32 n

/-- Columns wrap modulo 64. -/
def wrapCol (n : Nat) : Fin 64 := Fin.ofNat 64 n

/-- A drawing in progress: the display and whether a lit pixel has been turned off so far. -/
structure Canvas where
  display : Display
  hit     : Bool
  deriving DecidableEq, Repr

/-- One set sprite bit lands on row `p.1`, column `p.2`: a lit pixel there is a collision, and the pixel is
inverted (44_display.md R303). -/
def Canvas.touch (k : Canvas) (p : Fin 32 × Fin 64) : Canvas where
  display := k.display.flip p.1 p.2
  hit := k.hit || k.display.pixel p.1 p.2

/-- The pixels under the set bits of one sprite row `b` on screen row `py`, column offsets 0 to 7 in order:
offset `c` is bit `7 - c` (44_display.md R301). -/
def rowPixels (b : Byte) (xc : Nat) (py : Fin 32) : List (Fin 32 × Fin 64) :=
  ((List.range 8).filter fun c => b.getLsbD (7 - c)).map fun c => (py, wrapCol (xc + c))

/-- The pixels under the set bits of a sprite with its corner at column `xc`, row `yc`, row by row. -/
def spritePixels (xc : Nat) : Nat → List Byte → List (Fin 32 × Fin 64)
  | _, [] => []
  | yc, b :: bs => rowPixels b xc (wrapRow yc) ++ spritePixels xc (yc + 1) bs

/-- Draw a sprite with its corner at column `xc`, row `yc` (44_display.md R303). -/
def Display.draw (d : Display) (xc yc : Nat) (sprite : List Byte) : Canvas :=
  (spritePixels xc yc sprite).foldl Canvas.touch { display := d, hit := false }

/-- Replace the display. -/
def State.setDisplay (s : State) (d : Display) : State := { s with display := d }

/-! ## Taking a fault (60_exceptions.md R370 to R374) -/

/-- The 3-bit code of a cause, the first column of R370 (D12). -/
def Cause.code : Cause → BitVec 3
  | .none => 0
  | .illegalInstruction => 1
  | .stackOverflow => 2
  | .stackUnderflow => 3
  | .dataOutOfRange => 4
  | .fetchOutOfRange => 5
  | .keyIndexOutOfRange => 6

/-- The state after a fault at `s`, the state when the cycle began: everything as it was, but `status` and
the record. -/
def State.raise (s : State) (c : Cause) (info : Nat) (w : Option Word) : State :=
  { s with
    status := .halted
    fault := { cause := c, instAddr := s.pc, word := w, info := BitVec.ofNat 17 info } }

/-- Take a fault: the outcome is the HALTED next state (notes/assumptions/6.md). -/
def takeFault (c : Cause) (info : Nat) (w : Option Word) (s : State) :
    Host.Outcome State Fault Refusal :=
  .next (s.raise c info w)

/-- `check(lo, hi)` of 20_memory.md R63 for the instruction `i`: fault on the last address, else go on with
`t`. -/
def checkRange (last : Nat) (i : Instr) (s t : State) : Host.Outcome State Fault Refusal :=
  if last > 0xFFF then takeFault .dataOutOfRange last (some (encode i)) s else .next t

/-! ## Fetching (40_cycle_and_interface.md R124) -/

/-- The word at `pc`, or none when `pc + 1 > 0xFFF`. -/
def State.fetch? (s : State) : Option Word :=
  if s.pc.toNat + 1 > 0xFFF then none
  else some (wordOfBytes (s.mem.read s.pc.toNat) (s.mem.read (s.pc.toNat + 1)))

/-- The state in which the very next step fetches the word `w`: `w` stored at `pc`, the core RUNNING and no
host operation pending. Where `pc` admits no fetch, `pc` is put at the entry point
(notes/assumptions/9.md). -/
def State.placeWord (s : State) (w : Word) : State :=
  let a : Word := if s.pc.toNat + 1 > 0xFFF then 0x200 else s.pc
  { s with
    pc := a
    mem := s.mem.writeBytes a.toNat [highByte w, lowByte w]
    status := .running
    fault := FaultRecord.cleared
    pending := [] }

end Sys2Proof.Machine
end

