-- ==== Sys2Proof/Machine/Alu.lean ====
section
/-! DEFINITION. Registers and the ALU: 6XNN to 8XYE and CXNN (42_alu.md).
A meaning is given the state at the start of the cycle (`pc` still at the instruction); its first act is
the fetch's advance, so that a fault can leave that state as it was (notes/assumptions/7.md). -/

namespace Sys2Proof.Machine

/-- 6XNN: `V[x] <- nn` (R201). -/
def execLdImm (x : Reg) (nn : Byte) (s : State) : Host.Outcome State Fault Refusal := .next (s.advance.writeV x nn)

/-- 7XNN: `V[x] <- (V[x] + nn) mod 256`, no flag (R202). -/
def execAddImm (x : Reg) (nn : Byte) (s : State) : Host.Outcome State Fault Refusal :=
  .next (s.advance.writeV x (addMod256 (s.advance.readV x) nn))

/-- 8XY0: `V[x] <- V[y]` (R203). -/
def execLdReg (x y : Reg) (s : State) : Host.Outcome State Fault Refusal := .next (s.advance.writeV x (s.advance.readV y))

/-- 8XY1: `V[x] <- V[x] | V[y]` (R204). -/
def execOr (x y : Reg) (s : State) : Host.Outcome State Fault Refusal :=
  .next (s.advance.writeV x (s.advance.readV x ||| s.advance.readV y))

/-- 8XY2: `V[x] <- V[x] & V[y]` (R205). -/
def execAnd (x y : Reg) (s : State) : Host.Outcome State Fault Refusal :=
  .next (s.advance.writeV x (s.advance.readV x &&& s.advance.readV y))

/-- 8XY3: `V[x] <- V[x] ^ V[y]` (R206). -/
def execXor (x y : Reg) (s : State) : Host.Outcome State Fault Refusal :=
  .next (s.advance.writeV x (s.advance.readV x ^^^ s.advance.readV y))

/-- Write a result to `V[x]` and then a flag to VF, so that with `x = F` the flag is what remains (R200,
D8). -/
def State.writeResultThenFlag (s : State) (x : Reg) (result flag : Byte) : State :=
  (s.writeV x result).writeV VF flag

/-- 8XY4: the sum modulo 256, then VF = carry (R207). -/
def execAddReg (x y : Reg) (s : State) : Host.Outcome State Fault Refusal :=
  let t := s.advance
  .next (t.writeResultThenFlag x (addMod256 (t.readV x) (t.readV y)) (carryFlag (t.readV x) (t.readV y)))

/-- 8XY5: `V[x] - V[y]` modulo 256, then VF = not borrow (R208). -/
def execSub (x y : Reg) (s : State) : Host.Outcome State Fault Refusal :=
  let t := s.advance
  .next (t.writeResultThenFlag x (subMod256 (t.readV x) (t.readV y)) (notBorrowFlag (t.readV x) (t.readV y)))

/-- 8XY7: `V[y] - V[x]` modulo 256, then VF = not borrow (R210). -/
def execSubn (x y : Reg) (s : State) : Host.Outcome State Fault Refusal :=
  let t := s.advance
  .next (t.writeResultThenFlag x (subMod256 (t.readV y) (t.readV x)) (notBorrowFlag (t.readV y) (t.readV x)))

/-- 8XY6: VF gets the bit about to be dropped, then `V[x]`, read after that write, shifts right (R209, D9).
`y` is ignored (30_encoding.md R98). -/
def execShr (x _y : Reg) (s : State) : Host.Outcome State Fault Refusal :=
  let t := s.advance
  let t := t.writeV VF (droppedLowBit (t.readV x))
  .next (t.writeV x (shiftRight1 (t.readV x)))

/-- 8XYE: VF gets the top bit about to be dropped, then `V[x]`, read after that write, shifts left (R211,
D9). `y` is ignored (30_encoding.md R98). -/
def execShl (x _y : Reg) (s : State) : Host.Outcome State Fault Refusal :=
  let t := s.advance
  let t := t.writeV VF (droppedHighBit (t.readV x))
  .next (t.writeV x (shiftLeft1 (t.readV x)))

/-- CXNN: `V[x] <- rnd & nn`; consumes exactly one draw (R212, notes/assumptions/2.md). -/
def execRnd (x : Reg) (nn : Byte) (s : State) : Host.Outcome State Fault Refusal :=
  .next (s.advance.consumeDraw.writeV x (maskedDraw (Config.rnd s.draws) nn))

end Sys2Proof.Machine
end

