-- ==== Sys2Proof/Machine/ControlFlow.lean ====
section
/-! DEFINITION. Control flow: NOP, RET, JP, CALL, the register skips, JP V0 (41_control_flow.md).
A meaning is given the state at the start of the cycle (`pc` still at the instruction); its first act is
the fetch's advance, so that a fault can leave that state as it was (notes/assumptions/7.md). -/

namespace Sys2Proof.Machine

/-- 0000: only the fetch advance (R151). -/
def execNop (s : State) : Host.Outcome State Fault Refusal := .next s.advance

/-- 00EE: `pc <- pop()`; STACK_UNDERFLOW when `SP = 0` (R152). -/
def execRet (s : State) : Host.Outcome State Fault Refusal :=
  match s.advance.pop? with
  | none => takeFault .stackUnderflow s.sp.val (some (encode .ret)) s
  | some (target, t) => .next (t.setPc target)

/-- 1NNN: `pc <- nnn` (R153). -/
def execJp (nnn : Addr12) (s : State) : Host.Outcome State Fault Refusal := .next (s.advance.setPc (zext16 nnn))

/-- 2NNN: `push(pc)`, `pc` being the post-fetch address, then `pc <- nnn`; STACK_OVERFLOW when `SP = 16`
(R154). -/
def execCall (nnn : Addr12) (s : State) : Host.Outcome State Fault Refusal :=
  match s.advance.push? s.advance.pc with
  | none => takeFault .stackOverflow s.sp.val (some (encode (.call nnn))) s
  | some t => .next (t.setPc (zext16 nnn))

/-- 3XNN: skip if `V[x] == nn` (R155). -/
def execSeImm (x : Reg) (nn : Byte) (s : State) : Host.Outcome State Fault Refusal :=
  .next (s.advance.skipIf (s.advance.readV x == nn))

/-- 4XNN: skip if `V[x] != nn` (R156). -/
def execSneImm (x : Reg) (nn : Byte) (s : State) : Host.Outcome State Fault Refusal :=
  .next (s.advance.skipIf (s.advance.readV x != nn))

/-- 5XY0: skip if `V[x] == V[y]` (R157). -/
def execSeReg (x y : Reg) (s : State) : Host.Outcome State Fault Refusal :=
  .next (s.advance.skipIf (s.advance.readV x == s.advance.readV y))

/-- 9XY0: skip if `V[x] != V[y]` (R158). -/
def execSneReg (x y : Reg) (s : State) : Host.Outcome State Fault Refusal :=
  .next (s.advance.skipIf (s.advance.readV x != s.advance.readV y))

/-- BNNN: `pc <- V[0] + nnn`, the register always V0 (R159). -/
def execJpV0 (nnn : Addr12) (s : State) : Host.Outcome State Fault Refusal :=
  .next (s.advance.setPc (offsetTarget (s.advance.readV 0) nnn))

end Sys2Proof.Machine
end

