-- ==== Sys2Proof/Machine/DisplayOps.lean ====
section
/-! DEFINITION. The display instructions 00E0 and DXYN (44_display.md).
A meaning is given the state at the start of the cycle (`pc` still at the instruction); its first act is
the fetch's advance, so that a fault can leave that state as it was (notes/assumptions/7.md). -/

namespace Sys2Proof.Machine

/-- 00E0: every pixel off (R302). -/
def execCls (s : State) : Host.Outcome State Fault Refusal := .next (s.advance.setDisplay Display.clear)

/-- DXYN once its range is known good: the sprite's `n` bytes at I, drawn with the corner at column `V[x]`,
row `V[y]`, both read before any write, then VF = collision (R303). -/
def State.drawSprite (s : State) (x y : Reg) (n : Fin 16) : State :=
  let k := s.display.draw (s.readV x).toNat (s.readV y).toNat (s.mem.readBytes s.i.toNat n.val)
  (s.setDisplay k.display).writeV VF (flagByte k.hit)

/-- DXYN: with `n = 0` nothing is read and nothing checked; DATA_OUT_OF_RANGE on I + n - 1 (R303). -/
def execDrw (x y : Reg) (n : Fin 16) (s : State) : Host.Outcome State Fault Refusal :=
  let t := s.advance
  if n = 0 then .next (t.drawSprite x y n)
  else checkRange (t.i.toNat + n.val - 1) (.drw x y n) s (t.drawSprite x y n)

end Sys2Proof.Machine
end

