-- ==== Sys2Proof/Machine/IndexMemory.lean ====
section
/-! DEFINITION. The index register and memory transfers: ANNN, FX1E, FX29, FX33, FX55, FX65 (43_index_memory.md).
A meaning is given the state at the start of the cycle (`pc` still at the instruction); its first act is
the fetch's advance, so that a fault can leave that state as it was (notes/assumptions/7.md). -/

namespace Sys2Proof.Machine

/-- ANNN: `I <- nnn` (R250). -/
def execLdI (nnn : Addr12) (s : State) : Host.Outcome State Fault Refusal := .next (s.advance.setI (zext16 nnn))

/-- FX1E: `I <- (I + V[x]) mod 65536`, no flag (R251). -/
def execAddI (x : Reg) (s : State) : Host.Outcome State Fault Refusal :=
  .next (s.advance.setI (indexSum s.advance.i (s.advance.readV x)))

/-- FX29: `I <- V[x] * 5` (R252). -/
def execLdF (x : Reg) (s : State) : Host.Outcome State Fault Refusal := .next (s.advance.setI (glyphAddr (s.advance.readV x)))

/-- FX33: the three decimal digits of `V[x]` at I, I + 1, I + 2; DATA_OUT_OF_RANGE on I + 2 (R253). -/
def execLdB (x : Reg) (s : State) : Host.Outcome State Fault Refusal :=
  let t := s.advance
  checkRange (t.i.toNat + 2) (.ldB x) s (t.storeBytes t.i.toNat (bcdDigits (t.readV x)))

/-- FX55: V0 to Vx at I to I + x; DATA_OUT_OF_RANGE on I + x; I unchanged (R254). -/
def execLdStore (x : Reg) (s : State) : Host.Outcome State Fault Refusal :=
  let t := s.advance
  checkRange (t.i.toNat + x.val) (.ldStore x) s (t.storeBytes t.i.toNat (t.regsUpTo x))

/-- FX65: V0 to Vx from I to I + x; DATA_OUT_OF_RANGE on I + x; I unchanged (R255). -/
def execLdLoad (x : Reg) (s : State) : Host.Outcome State Fault Refusal :=
  let t := s.advance
  checkRange (t.i.toNat + x.val) (.ldLoad x) s (t.loadRegs t.i.toNat x)

end Sys2Proof.Machine
end

