-- ==== Sys2Proof/Machine/KeysTimers.lean ====
section
/-! DEFINITION. The key and timer instructions EX9E, EXA1, FX0A, FX07, FX15, FX18 (45_keys_timers.md).
A meaning is given the state at the start of the cycle (`pc` still at the instruction); its first act is
the fetch's advance, so that a fault can leave that state as it was (notes/assumptions/7.md). -/

namespace Sys2Proof.Machine

/-- Skip when the key that `V[x]` names is in the wanted position; KEY_INDEX_OUT_OF_RANGE, with `V[x]` as the
info, when `V[x] > 0xF` (R330, R331, D10). -/
def skipOnKey (wanted : Bool) (x : Reg) (i : Instr) (s : State) : Host.Outcome State Fault Refusal :=
  let t := s.advance
  match keyOperand (t.readV x) with
  | none => takeFault .keyIndexOutOfRange (t.readV x).toNat (some (encode i)) s
  | some k => .next (t.skipIf (t.readKey k == wanted))

/-- EX9E: skip if key `V[x]` is pressed (R330). -/
def execSkp (x : Reg) (s : State) : Host.Outcome State Fault Refusal := skipOnKey true x (.skp x) s

/-- EXA1: skip if key `V[x]` is released (R331). -/
def execSknp (x : Reg) (s : State) : Host.Outcome State Fault Refusal := skipOnKey false x (.sknp x) s

/-- FX07: `V[x] <- DT` (R333). -/
def execLdVxDt (x : Reg) (s : State) : Host.Outcome State Fault Refusal := .next (s.advance.writeV x s.advance.dt)

/-- FX0A: with no key pressed `pc` is moved back by 2, to this instruction; else `V[x]` gets the
lowest-indexed pressed key (R332). -/
def execLdVxK (x : Reg) (s : State) : Host.Outcome State Fault Refusal :=
  let t := s.advance
  match t.lowestPressed with
  | none => .next (t.setPc (t.pc - 2))
  | some k => .next (t.writeV x (keyByte k))

/-- FX15: `DT <- V[x]` (R334). -/
def execLdDtVx (x : Reg) (s : State) : Host.Outcome State Fault Refusal := .next (s.advance.setDT (s.advance.readV x))

/-- FX18: `ST <- V[x]`, the register of the X field (R335, D7). -/
def execLdStVx (x : Reg) (s : State) : Host.Outcome State Fault Refusal := .next (s.advance.setST (s.advance.readV x))

end Sys2Proof.Machine
end

