-- ==== Sys2Proof/Machine/Cycle.lean ====
section
/-! DEFINITION. STEP, one instruction cycle: fetch, decode, execute (40_cycle_and_interface.md R123). -/

namespace Sys2Proof.Machine

/-- STEP. While HALTED it is rejected and changes nothing (R129). The order of the tests is the priority of
60_exceptions.md R373: HALTED, fetch range, illegal word, the instruction's own fault. -/
def cycle (s : State) : Host.Outcome State Fault Refusal :=
  match s.status with
  | .halted => .next s
  | .running =>
    match s.fetch? with
    | none => takeFault .fetchOutOfRange s.pc.toNat none s
    | some w =>
      match decodeWord w with
      | .error _ => takeFault .illegalInstruction w.toNat (some w) s
      | .ok i => exec i s

end Sys2Proof.Machine
end

