-- ==== Sys2Proof/Machine/HostOps.lean ====
section
/-! DEFINITION. The host interface (40_cycle_and_interface.md R120 to R133): what each operation does to the
state and what it answers. -/

namespace Sys2Proof.Machine

/-- Why an operation is rejected (40_cycle_and_interface.md R120). -/
inductive Rejection where
  | imageTooLarge
  | keyIndexInvalid
  | halted
  deriving DecidableEq, Repr

/-- The result of an operation (40_cycle_and_interface.md R120). -/
inductive Reply where
  | ok
  /-- TIMER_TICK's OK, with the sound-expired indication -/
  | ticked (soundExpired : Bool)
  | fault (record : FaultRecord)
  | rejected (why : Rejection)
  /-- READ_DISPLAY: bit `y * 64 + x` is pixel D[y][x] -/
  | display (bits : Vector Bool 2048)
  | sound (st : Byte) (soundOn : Bool)
  | status (status : RunStatus) (record : FaultRecord)
  deriving DecidableEq, Repr

/-- RESET: every piece of the core's state to its reset value (70_reset_and_hazards.md R420). The parameters
stay: FONT, the draws consumed, the host's pending operations (notes/assumptions/5.md). -/
def State.resetCore (s : State) : State :=
  { State.resetWith s.mem.font with draws := s.draws, pending := s.pending }

/-- The image fits from 0x200 to the end of memory (40_cycle_and_interface.md R130). -/
def imageFits (data : List Byte) : Bool := 0x200 + data.length ≤ 0x1000

/-- KEY's write: `K[index] <- pressed` (40_cycle_and_interface.md R131). -/
def State.setKey (s : State) (k : Key) (pressed : Bool) : State := { s with keys := s.keys.set k pressed }

/-- One timer's countdown: toward 0, staying at 0 (60_exceptions.md R385). -/
def countDown (b : Byte) : Byte := if b = 0 then 0 else b - 1

/-- TIMER_TICK's effect: both timers in one operation (60_exceptions.md R385). -/
def State.tickTimers (s : State) : State := { s with dt := countDown s.dt, st := countDown s.st }

/-- `sound_expired`: this tick takes ST from 1 to 0 (60_exceptions.md R387). -/
def State.soundExpires (s : State) : Bool := s.st == 1

/-- `sound_on = (ST != 0)` (60_exceptions.md R387). -/
def State.soundOn (s : State) : Bool := s.st != 0

/-- The display in row-major order (40_cycle_and_interface.md R132). -/
def Display.rowMajor (d : Display) : Vector Bool 2048 :=
  Vector.ofFn fun j : Fin 2048 => d.pixel (wrapRow (j.val / 64)) (wrapCol j.val)

/-- STEP's answer, from the states before and after it (40_cycle_and_interface.md R123). -/
def stepReply (before after : State) : Reply :=
  match before.status, after.status with
  | .halted, _ => .rejected .halted
  | .running, .halted => .fault after.fault
  | .running, .running => .ok

/-- Perform one operation: the state after it and its reply. -/
def perform (op : HostOp) (s : State) : Host.Outcome (State × Reply) Fault Refusal :=
  match op, s.status with
  | .reset, _ => .next (s.resetCore, .ok)
  | .readDisplay, _ => .next (s, .display s.display.rowMajor)
  | .readSound, _ => .next (s, .sound s.st s.soundOn)
  | .readStatus, _ => .next (s, .status s.status s.fault)
  | .step, _ =>
    match cycle s with
    | .next t => .next (t, stepReply s t)
    | .fault r => .fault r
    | .refused r => .refused r
  | .load _, .halted => .next (s, .rejected .halted)
  | .load data, .running =>
    if imageFits data then .next (s.storeBytes 0x200 data, .ok)
    else .next (s, .rejected .imageTooLarge)
  | .key _ _, .halted => .next (s, .rejected .halted)
  | .key index pressed, .running =>
    if h : index < 16 then .next (s.setKey ⟨index, h⟩ pressed, .ok)
    else .next (s, .rejected .keyIndexInvalid)
  | .timerTick, .halted => .next (s, .rejected .halted)
  | .timerTick, .running => .next (s.tickTimers, .ticked s.soundExpires)

/-- Perform one operation and keep the state (notes/assumptions/4.md). -/
def performState (op : HostOp) (s : State) : Host.Outcome State Fault Refusal :=
  match perform op s with
  | .next (t, _) => .next t
  | .fault r => .fault r
  | .refused r => .refused r

end Sys2Proof.Machine
end

