-- ==== Sys2Proof/Machine/Step.lean ====
section
/-! DEFINITION. One step of the machine, and the placing of a word for the next fetch. -/

namespace Sys2Proof.Machine

/-- One step: the oldest pending host operation, or one STEP when none is pending
(40_cycle_and_interface.md R121, notes/assumptions/3.md). -/
def step (s : State) : Host.Outcome State Fault Refusal :=
  match s.pending with
  | [] => cycle s
  | op :: later => performState op { s with pending := later }

/-- `s` with the `nbits`-bit instruction `w` (numbered as spec/opcode_table.json numbers it) stored where the
next step fetches, so that the very next step runs it (notes/assumptions/9.md). -/
def State.withFetchWord (s : State) (nbits w : Nat) : State :=
  s.placeWord (BitVec.ofNat 16 (w % 2 ^ nbits))

end Sys2Proof.Machine
end

