-- ==== Sys2Proof/Safety.lean ====
section
/-! DEFINITION. The terms the claims use: a safe state, what each instruction may write (10_state.md R39),
the frame rule (40_cycle_and_interface.md R128), what a fault record says (60_exceptions.md R370), and the
invariant. -/

namespace Sys2Proof

open Machine

/-- A run is safe as long as its states are RUNNING: no fault has been recorded (60_exceptions.md R374). -/
abbrev Machine.State.Safe (s : State) : Prop := s.status = .running

/-! ## What an instruction may write besides `pc` (10_state.md R39) -/

/-- The general registers the instruction writes at `s`; FX0A writes its register only when a key is pressed. -/
def Instr.writesReg (i : Instr) (s : State) (r : Reg) : Bool :=
  match i with
  | .seImm _ _ | .sneImm _ _ | .seReg _ _ | .sneReg _ _ | .skp _ | .sknp _
  | .nop | .cls | .ret | .jp _ | .call _ | .jpV0 _ | .ldI _
  | .ldDtVx _ | .ldStVx _ | .addI _ | .ldF _ | .ldB _ | .ldStore _ => false
  | .ldImm x _ | .addImm x _ | .ldReg x _ | .or x _ | .and x _ | .xor x _ | .rnd x _
  | .ldVxDt x => r = x
  | .ldVxK x => r = x ∧ ∃ k, s.readKey k = true
  | .addReg x _ | .sub x _ | .subn x _ | .shr x _ | .shl x _ => r = x ∨ r = VF
  | .drw _ _ _ => r = VF
  | .ldLoad x => r ≤ x

/-- The instructions that write `I`. -/
def Instr.writesIndex (i : Instr) : Bool :=
  match i with
  | .ldI _ | .addI _ | .ldF _ => true
  | .nop | .cls | .ret | .jp _ | .call _ | .seImm _ _ | .sneImm _ _ | .seReg _ _ | .ldImm _ _
  | .addImm _ _ | .ldReg _ _ | .or _ _ | .and _ _ | .xor _ _ | .addReg _ _ | .sub _ _ | .shr _ _
  | .subn _ _ | .shl _ _ | .sneReg _ _ | .jpV0 _ | .rnd _ _ | .drw _ _ _ | .skp _ | .sknp _
  | .ldVxDt _ | .ldVxK _ | .ldDtVx _ | .ldStVx _ | .ldB _ | .ldStore _ | .ldLoad _ => false

/-- The stack slots the instruction writes at `s`: slot SP for 2NNN, no other. -/
def Instr.writesSlot (i : Instr) (s : State) (k : Fin 16) : Bool :=
  match i with
  | .call _ => k.val = s.sp.val
  | .nop | .cls | .ret | .jp _ | .seImm _ _ | .sneImm _ _ | .seReg _ _ | .ldImm _ _ | .addImm _ _
  | .ldReg _ _ | .or _ _ | .and _ _ | .xor _ _ | .addReg _ _ | .sub _ _ | .shr _ _ | .subn _ _
  | .shl _ _ | .sneReg _ _ | .ldI _ | .jpV0 _ | .rnd _ _ | .drw _ _ _ | .skp _ | .sknp _
  | .ldVxDt _ | .ldVxK _ | .ldDtVx _ | .ldStVx _ | .addI _ | .ldF _ | .ldB _ | .ldStore _
  | .ldLoad _ => false

/-- The instructions that write SP. -/
def Instr.writesSp (i : Instr) : Bool :=
  match i with
  | .ret | .call _ => true
  | .nop | .cls | .jp _ | .seImm _ _ | .sneImm _ _ | .seReg _ _ | .ldImm _ _ | .addImm _ _
  | .ldReg _ _ | .or _ _ | .and _ _ | .xor _ _ | .addReg _ _ | .sub _ _ | .shr _ _ | .subn _ _
  | .shl _ _ | .sneReg _ _ | .ldI _ | .jpV0 _ | .rnd _ _ | .drw _ _ _ | .skp _ | .sknp _
  | .ldVxDt _ | .ldVxK _ | .ldDtVx _ | .ldStVx _ | .addI _ | .ldF _ | .ldB _ | .ldStore _
  | .ldLoad _ => false

/-- The instructions that write the display. -/
def Instr.writesDisplay (i : Instr) : Bool :=
  match i with
  | .cls | .drw _ _ _ => true
  | .nop | .ret | .jp _ | .call _ | .seImm _ _ | .sneImm _ _ | .seReg _ _ | .ldImm _ _
  | .addImm _ _ | .ldReg _ _ | .or _ _ | .and _ _ | .xor _ _ | .addReg _ _ | .sub _ _ | .shr _ _
  | .subn _ _ | .shl _ _ | .sneReg _ _ | .ldI _ | .jpV0 _ | .rnd _ _ | .skp _ | .sknp _
  | .ldVxDt _ | .ldVxK _ | .ldDtVx _ | .ldStVx _ | .addI _ | .ldF _ | .ldB _ | .ldStore _
  | .ldLoad _ => false

/-- The last address of the instruction's memory access, on unbounded integers, if it makes one
(20_memory.md R63). -/
def Instr.lastAccess (i : Instr) (s : State) : Option Nat :=
  match i with
  | .drw _ _ n => if n = 0 then none else some (s.i.toNat + n.val - 1)
  | .ldB _ => some (s.i.toNat + 2)
  | .ldStore x | .ldLoad x => some (s.i.toNat + x.val)
  | .nop | .cls | .ret | .jp _ | .call _ | .seImm _ _ | .sneImm _ _ | .seReg _ _ | .ldImm _ _
  | .addImm _ _ | .ldReg _ _ | .or _ _ | .and _ _ | .xor _ _ | .addReg _ _ | .sub _ _ | .shr _ _
  | .subn _ _ | .shl _ _ | .sneReg _ _ | .ldI _ | .jpV0 _ | .rnd _ _ | .skp _ | .sknp _
  | .ldVxDt _ | .ldVxK _ | .ldDtVx _ | .ldStVx _ | .addI _ | .ldF _ => none

/-- The addresses the instruction stores to: from I to its last access, for the two that store. -/
def Instr.storesTo (i : Instr) (s : State) (a : Nat) : Bool :=
  match i with
  | .ldB _ => s.i.toNat ≤ a ∧ a ≤ s.i.toNat + 2
  | .ldStore x => s.i.toNat ≤ a ∧ a ≤ s.i.toNat + x.val
  | .nop | .cls | .ret | .jp _ | .call _ | .seImm _ _ | .sneImm _ _ | .seReg _ _ | .ldImm _ _
  | .addImm _ _ | .ldReg _ _ | .or _ _ | .and _ _ | .xor _ _ | .addReg _ _ | .sub _ _ | .shr _ _
  | .subn _ _ | .shl _ _ | .sneReg _ _ | .ldI _ | .jpV0 _ | .rnd _ _ | .drw _ _ _ | .skp _
  | .sknp _ | .ldVxDt _ | .ldVxK _ | .ldDtVx _ | .ldStVx _ | .addI _ | .ldF _ | .ldLoad _ => false

/-- The fault the instruction itself raises at `s`, with its info, if its condition holds there
(60_exceptions.md R370). -/
def Instr.ownFault (i : Instr) (s : State) : Option (Cause × Nat) :=
  match i with
  | .ret => if s.sp.val = 0 then some (.stackUnderflow, 0) else none
  | .call _ => if s.sp.val = 16 then some (.stackOverflow, 16) else none
  | .skp x | .sknp x =>
    if 0xF < (s.readV x).toNat then some (.keyIndexOutOfRange, (s.readV x).toNat) else none
  | .drw _ _ _ | .ldB _ | .ldStore _ | .ldLoad _ =>
    match i.lastAccess s with
    | some last => if 0xFFF < last then some (.dataOutOfRange, last) else none
    | none => none
  | .nop | .cls | .jp _ | .seImm _ _ | .sneImm _ _ | .seReg _ _ | .ldImm _ _ | .addImm _ _
  | .ldReg _ _ | .or _ _ | .and _ _ | .xor _ _ | .addReg _ _ | .sub _ _ | .shr _ _ | .subn _ _
  | .shl _ _ | .sneReg _ _ | .ldI _ | .jpV0 _ | .rnd _ _ | .ldVxDt _ | .ldVxK _ | .ldDtVx _
  | .ldStVx _ | .addI _ | .ldF _ => none

/-- The frame rule: `t` differs from `s` only in `pc` and in what R39 lets `i` write
(40_cycle_and_interface.md R128). -/
structure Frame (i : Instr) (s t : State) : Prop where
  regs    : ∀ r, i.writesReg s r = false → t.readV r = s.readV r
  index   : i.writesIndex = false → t.i = s.i
  stack   : ∀ k : Fin 16, i.writesSlot s k = false → t.stack[k] = s.stack[k]
  sp      : i.writesSp = false → t.sp = s.sp
  memory  : ∀ a, i.storesTo s a = false → t.mem.read a = s.mem.read a
  font    : t.mem.font = s.mem.font
  display : i.writesDisplay = false → t.display = s.display
  keys    : t.keys = s.keys
  delay   : (∀ x, i ≠ .ldDtVx x) → t.dt = s.dt
  sound   : (∀ x, i ≠ .ldStVx x) → t.st = s.st
  status  : i.ownFault s = none → t.status = s.status ∧ t.fault = s.fault
  faulted : i.ownFault s ≠ none → t = { s with status := t.status, fault := t.fault }
  draws   : (∀ x nn, i ≠ .rnd x nn) → t.draws = s.draws
  pending : t.pending = s.pending

/-- What `a` holds once the bytes `bs` are laid over the memory from `lo` on. -/
def Machine.Memory.overlaid (m : Memory) (lo : Nat) (bs : List Byte) (a : Nat) : Byte :=
  if lo ≤ a then bs[a - lo]?.getD (m.read a) else m.read a

/-- The next STEP from `t` is a fetch fault: where `pc + 1 > 0xFFF`, whatever `pc` is, it records
FETCH_OUT_OF_RANGE with that address (40_cycle_and_interface.md R124). -/
def Machine.State.NextFetchFaults (t : State) : Prop :=
  t.status = .running → t.pending = [] → ∃ u, step t = .next u ∧ u.status = .halted ∧
    u.fault.cause = .fetchOutOfRange ∧ u.fault.instAddr = t.pc ∧ u.pc = t.pc

/-- The two states differ at most in stale stack slots, those at or above SP (10_state.md R36). -/
def Machine.State.SameButStale (s t : State) : Prop :=
  t = { s with stack := t.stack } ∧ ∀ k : Fin 16, k.val < s.sp.val → t.stack[k] = s.stack[k]

/-- Row `r`, column offset `c` of the sprite at I is a set bit and falls on the pixel of row `y`, column `x`
when drawn with its corner at column `xc`, row `yc` (44_display.md R301). -/
def Machine.State.SpriteBitOn (s : State) (xc yc r c : Nat) (y : Fin 32) (x : Fin 64) : Prop :=
  (s.mem.read (s.i.toNat + r)).getLsbD (7 - c) = true ∧ y.val = (yc + r) % 32 ∧ x.val = (xc + c) % 64

/-- Some set bit of the `n`-row sprite at I falls on the pixel of row `y`, column `x`. -/
def Machine.State.SpriteOn (s : State) (xc yc n : Nat) (y : Fin 32) (x : Fin 64) : Prop :=
  ∃ r < n, ∃ c < 8, s.SpriteBitOn xc yc r c y x

/-! ## What a fault record says (60_exceptions.md R370, R372) -/

/-- The record of a HALTED state is true of that state, which is the state the faulting cycle began in:
the address is `pc`, the word is what stands there, and the cause's condition holds with its info. -/
def Machine.State.FaultExplained (s : State) : Prop :=
  s.fault.instAddr = s.pc ∧ s.fault.word = s.fetch? ∧
  match s.fault.cause with
  | .none => False
  | .fetchOutOfRange => s.fetch? = none ∧ s.fault.info.toNat = s.pc.toNat
  | .illegalInstruction =>
    ∃ w, s.fetch? = some w ∧ decodeWord w = .error (.illegal w) ∧ s.fault.info.toNat = w.toNat
  | .stackOverflow | .stackUnderflow | .dataOutOfRange | .keyIndexOutOfRange =>
    ∃ i, s.fetch? = some (encode i) ∧ i.ownFault s = some (s.fault.cause, s.fault.info.toNat)

/-! ## The invariant -/

/-- What every step keeps: the memory's canonical form; `pc` at most 0x10FE (10_state.md R22); every stack
slot a post-fetch address, at most 0x1000; while RUNNING the record is cleared, while HALTED it is true
(10_state.md R34). -/
structure Machine.State.Inv (s : State) : Prop where
  memory  : s.mem.wf = true
  pc      : s.pc.toNat ≤ 0x10FE
  stack   : ∀ k : Fin 16, (s.stack[k]).toNat ≤ 0x1000
  running : s.status = .running → s.fault = FaultRecord.cleared
  halted  : s.status = .halted → s.FaultExplained

end Sys2Proof
end

