-- ==== Sys2Proof/Certificates/Slice0/Obligations.lean ====
section
/-! DEFINITION. The statements about this model. Each docstring names the rule or decision it rests on; a
statement marked "spec's decision D<n>" rests on a choice the spec marks as its own. "`t = { s with … }`" says
that every field not named is unchanged. -/

open Sys2Proof Sys2Proof.Machine

/-! ## Encoding (30_encoding.md) -/

/-- The decoder undoes the encoder on every well-formed instruction, with every operand value (R92, R94). -/
def Obligations.DecodeEncodeRoundTrip : Prop :=
  ∀ i : Instr, i.wellFormed = true →
    decodeWord (encode i) = .ok i ∧ ∀ rest, decode (encodeBytes i ++ rest) = .ok (i, rest)

/-- The other direction: a word that decodes is the encoding of what it decodes to, so no two words share an
instruction with its operands (R94, R98: the unused Y of 8XY6 and 8XYE is kept). -/
def Obligations.EncodeDecodeRoundTrip : Prop :=
  ∀ (w : Word) (i : Instr), decodeWord w = .ok i → encode i = w ∧ i.wellFormed = true

/-- A word is an instruction exactly when some row of the table matches it, and it then lies in the row of
the instruction it decodes to (R94; which words are illegal is the spec's decision D6). -/
def Obligations.DecodeFollowsTheOpcodeTable : Prop :=
  ∀ w : Word,
    (∀ i, decodeWord w = .ok i → w &&& rowMask i = rowMatch i ∧ (rowMatch i, rowMask i) ∈ opcodeRows) ∧
    (decodeWord w = .error (.illegal w) ↔ ∀ row ∈ opcodeRows, w &&& row.2 ≠ row.1)

/-- No two rows of the table match one word (R94, marked derived there). -/
def Obligations.NoTwoRowsMatchOneWord : Prop :=
  ∀ (w : Word), ∀ p ∈ opcodeRows, ∀ q ∈ opcodeRows, w &&& p.2 = p.1 → w &&& q.2 = q.1 → p = q

/-- Group by group, which words are illegal (R95, R96, R97; the spec's decision D6). -/
def Obligations.IllegalSpaceByGroup : Prop :=
  ∀ w : Word, decodeWord w = .error (.illegal w) ↔
    (fieldOp w = 0x0 ∧ w ≠ 0x0000 ∧ w ≠ 0x00E0 ∧ w ≠ 0x00EE) ∨
    ((fieldOp w = 0x5 ∨ fieldOp w = 0x9) ∧ fieldN w ≠ 0) ∨
    (fieldOp w = 0x8 ∧ 8 ≤ (fieldN w).val ∧ (fieldN w).val ≠ 0xE) ∨
    (fieldOp w = 0xE ∧ fieldNN w ≠ 0x9E ∧ fieldNN w ≠ 0xA1) ∨
    (fieldOp w = 0xF ∧ ∀ k ∈ [0x07#8, 0x0A#8, 0x15#8, 0x18#8, 0x1E#8, 0x29#8, 0x33#8, 0x55#8, 0x65#8],
      fieldNN w ≠ k)

/-- A few words, written out from the table of R94, decode to their instruction or are rejected (sanity). -/
def Obligations.WrittenWordsDecode : Prop :=
  decodeWord 0x0000 = .ok .nop ∧ decodeWord 0x2ABC = .ok (.call 0xABC) ∧
  decodeWord 0x8F1E = .ok (.shl 0xF 0x1) ∧ decodeWord 0xF118 = .ok (.ldStVx 0x1) ∧
  decodeWord 0xD5A7 = .ok (.drw 0x5 0xA 0x7) ∧ decodeWord 0x5121 = .error (.illegal 0x5121)

/-! ## The instruction cycle (40_cycle_and_interface.md) -/

/-- A STEP of a RUNNING core runs the instruction its two bytes at `pc` decode to (R123, R125; that the bytes
are read wherever `pc + 1 <= 0xFFF` is the spec's decision D4; that `step` performs a STEP when nothing is
pending is log 3). -/
def Obligations.StepRunsTheDecodedInstruction : Prop :=
  ∀ (s : State) (i : Instr), s.pending = [] → s.status = .running → s.pc.toNat + 1 ≤ 0xFFF →
    decode [s.mem.read s.pc.toNat, s.mem.read (s.pc.toNat + 1)] = .ok (i, []) → step s = exec i s

/-- A fetch with `pc + 1 > 0xFFF` faults FETCH_OUT_OF_RANGE with no word, and changes nothing else (R124; the
spec's decisions D3, D4). -/
def Obligations.FetchBeyondMemoryFaults : Prop :=
  ∀ s : State, s.pending = [] → s.status = .running → 0xFFF < s.pc.toNat + 1 →
    ∃ t, step s = .next t ∧
      t = { s with status := .halted, fault := ⟨.fetchOutOfRange, s.pc, none, t.fault.info⟩ } ∧
      t.fault.info.toNat = s.pc.toNat

/-- A word that matches no row faults ILLEGAL_INSTRUCTION with the word as info, and changes nothing else
(R97, R125; the spec's decisions D3, D4, D6). -/
def Obligations.IllegalWordFaults : Prop :=
  ∀ (s : State) (w : Word), s.pending = [] → s.status = .running → s.pc.toNat + 1 ≤ 0xFFF →
    w = wordOfBytes (s.mem.read s.pc.toNat) (s.mem.read (s.pc.toNat + 1)) →
    (∀ row ∈ opcodeRows, w &&& row.2 ≠ row.1) →
    ∃ t, step s = .next t ∧
      t = { s with status := .halted, fault := ⟨.illegalInstruction, s.pc, some w, t.fault.info⟩ } ∧
      t.fault.info.toNat = w.toNat

/-- Byte order: the byte at the lower address holds bits 15:8 of the fetched word; FX33 puts the hundreds at
the lowest address; FX55 and FX65 map V[k] to I + k (20_memory.md R65). -/
def Obligations.ByteOrder : Prop :=
  ∀ s : State,
    (∀ w, s.fetch? = some w →
      w.toNat = (s.mem.read s.pc.toNat).toNat * 256 + (s.mem.read (s.pc.toNat + 1)).toNat) ∧
    (∀ x, s.i.toNat + 2 ≤ 0xFFF → ∃ t, exec (.ldB x) s = .next t ∧
      (t.mem.read s.i.toNat).toNat = (s.readV x).toNat / 100 ∧
      (t.mem.read (s.i.toNat + 1)).toNat = (s.readV x).toNat / 10 % 10 ∧
      (t.mem.read (s.i.toNat + 2)).toNat = (s.readV x).toNat % 10) ∧
    (∀ x k : Reg, k ≤ x → s.i.toNat + x.val ≤ 0xFFF →
      (∃ t, exec (.ldStore x) s = .next t ∧ t.mem.read (s.i.toNat + k.val) = s.readV k) ∧
      (∃ t, exec (.ldLoad x) s = .next t ∧ t.readV k = s.mem.read (s.i.toNat + k.val)))

/-- Every step of every state answers a next state: the model neither faults nor refuses (60_exceptions.md
R376; that a fault is a HALTED next state is log 6). -/
def Obligations.EveryStepAnswersNext : Prop := ∀ s : State, ∃ t, step s = .next t

/-- Faults are precise: a STEP that halts a RUNNING core changes nothing but the status and the record, whose
address is `pc` (R126, 60_exceptions.md R371; the spec's decision D3). -/
def Obligations.FaultsArePrecise : Prop :=
  ∀ s t : State, s.pending = [] → s.status = .running → step s = .next t → t.status = .halted →
    t = { s with status := .halted, fault := t.fault } ∧ t.fault.instAddr = s.pc ∧
      t.fault.cause ≠ .none ∧ t.fault.word = s.fetch?

/-- An instruction faults exactly when the table of 60_exceptions.md R370 says so, with that cause and info
and nothing else changed; on every other state it completes with status and record unchanged (the spec's
decisions D3, D5, D10, D12). -/
def Obligations.InstructionsFaultExactlyAsTabled : Prop :=
  ∀ (i : Instr) (s : State),
    (∀ c info, i.ownFault s = some (c, info) → ∃ t, exec i s = .next t ∧ t.fault.info.toNat = info ∧
      t = { s with status := .halted, fault := ⟨c, s.pc, some (encode i), t.fault.info⟩ }) ∧
    (i.ownFault s = none → ∃ t, exec i s = .next t ∧ t.status = s.status ∧ t.fault = s.fault)

/-- A STEP of a RUNNING core halts it in exactly three cases, in this order: no word can be fetched, the word
is illegal, or the instruction's own fault (60_exceptions.md R373, marked derived there). -/
def Obligations.WhenAStepHalts : Prop :=
  ∀ s t : State, s.pending = [] → s.status = .running → step s = .next t →
    (t.status = .halted ↔
      s.fetch? = none ∨
      (∃ w, s.fetch? = some w ∧ decodeWord w = .error (.illegal w)) ∨
      (∃ i, s.fetch? = some (encode i) ∧ i.ownFault s ≠ none))

/-- The table of R127: where `pc` stands after an instruction that does not fault (marked derived there). -/
def Obligations.PcAfterEachInstruction : Prop :=
  ∀ (i : Instr) (s t : State), exec i s = .next t → i.ownFault s = none →
    match i with
    | .jp nnn | .call nnn => t.pc.toNat = nnn.toNat
    | .jpV0 nnn => t.pc.toNat = (s.readV 0).toNat + nnn.toNat
    | .ret => ∀ k : Fin 16, k.val + 1 = s.sp.val → t.pc = s.stack[k]
    | .seImm x nn => t.pc = if s.readV x = nn then s.pc + 4 else s.pc + 2
    | .sneImm x nn => t.pc = if s.readV x = nn then s.pc + 2 else s.pc + 4
    | .seReg x y => t.pc = if s.readV x = s.readV y then s.pc + 4 else s.pc + 2
    | .sneReg x y => t.pc = if s.readV x = s.readV y then s.pc + 2 else s.pc + 4
    | .skp x => ∀ k : Key, k.val = (s.readV x).toNat → t.pc = if s.readKey k then s.pc + 4 else s.pc + 2
    | .sknp x => ∀ k : Key, k.val = (s.readV x).toNat → t.pc = if s.readKey k then s.pc + 2 else s.pc + 4
    | .ldVxK _ => t.pc = if ∃ k, s.readKey k = true then s.pc + 2 else s.pc
    | .nop | .cls | .ldImm _ _ | .addImm _ _ | .ldReg _ _ | .or _ _ | .and _ _ | .xor _ _
    | .addReg _ _ | .sub _ _ | .shr _ _ | .subn _ _ | .shl _ _ | .ldI _ | .rnd _ _ | .drw _ _ _
    | .ldVxDt _ | .ldDtVx _ | .ldStVx _ | .addI _ | .ldF _ | .ldB _ | .ldStore _ | .ldLoad _ =>
      t.pc = s.pc + 2

/-- The frame rule for every instruction: whatever state follows, only what 10_state.md R39 names has changed
besides `pc`, slot by slot of the stack (00EE writes none, 2NNN the slot at SP alone) and with FX0A writing its
register only when a key is pressed; a fault changes only the status and the record (R128; the spec's decisions D2,
D3). -/
def Obligations.FrameRule : Prop :=
  ∀ (i : Instr) (s t : State), exec i s = .next t → Frame i s t

/-! ## Control flow (41_control_flow.md) -/

/-- 0000, 1NNN and BNNN: only `pc` changes, to the address after the instruction, to nnn, to V0 + nnn; a
target above 0xFFE faults at the next fetch, not here (R151, R153, R159; the unwrapped sum is the spec's decision
D5; the fetch fault rests on D3, D4 and, for a step with nothing pending, on log 3; log 12). -/
def Obligations.NopAndJumps : Prop :=
  ∀ (s : State) (nnn : Addr12),
    exec .nop s = .next { s with pc := s.pc + 2 } ∧
    (∃ t, exec (.jp nnn) s = .next t ∧ t = { s with pc := t.pc } ∧ t.pc.toNat = nnn.toNat ∧
      (0xFFE < t.pc.toNat → t.NextFetchFaults)) ∧
    (∃ t, exec (.jpV0 nnn) s = .next t ∧ t = { s with pc := t.pc } ∧
      t.pc.toNat = (s.readV 0).toNat + nnn.toNat ∧ t.pc.toNat ≤ 0x10FE ∧
      (0xFFE < t.pc.toNat → t.NextFetchFaults))

/-- 3XNN, 4XNN, 5XY0 and 9XY0: only `pc` changes, by 4 when the condition holds and by 2 when not; with one
register twice 5XX0 always and 9XX0 never skips (R155, R156, R157, R158). -/
def Obligations.RegisterSkips : Prop :=
  ∀ (s : State) (x y : Reg) (nn : Byte),
    exec (.seImm x nn) s = .next { s with pc := if s.readV x = nn then s.pc + 4 else s.pc + 2 } ∧
    exec (.sneImm x nn) s = .next { s with pc := if s.readV x ≠ nn then s.pc + 4 else s.pc + 2 } ∧
    exec (.seReg x y) s = .next { s with pc := if s.readV x = s.readV y then s.pc + 4 else s.pc + 2 } ∧
    exec (.sneReg x y) s = .next { s with pc := if s.readV x ≠ s.readV y then s.pc + 4 else s.pc + 2 } ∧
    exec (.seReg x x) s = .next { s with pc := s.pc + 4 } ∧
    exec (.sneReg x x) s = .next { s with pc := s.pc + 2 }

/-- 2NNN with room on the stack: the post-fetch address goes to slot SP, SP grows by one, `pc` is nnn, and
nothing else changes (R154, R26). -/
def Obligations.CallPushesTheReturnAddress : Prop :=
  ∀ (s : State) (nnn : Addr12), s.sp.val < 16 →
    ∃ t, exec (.call nnn) s = .next t ∧ t = { s with pc := t.pc, stack := t.stack, sp := t.sp } ∧
      t.pc.toNat = nnn.toNat ∧ t.sp.val = s.sp.val + 1 ∧
      ∀ k : Fin 16, t.stack[k] = if k.val = s.sp.val then s.pc + 2 else s.stack[k]

/-- 00EE with an occupied stack: `pc` is the slot below SP, unchecked, SP shrinks by one, the slot keeps its
value, and nothing else changes; an address above 0xFFE faults at the next fetch (R152, R27). -/
def Obligations.ReturnPopsTheTopSlot : Prop :=
  ∀ (s : State) (k : Fin 16), k.val + 1 = s.sp.val →
    ∃ t, exec .ret s = .next t ∧ t = { s with pc := s.stack[k], sp := t.sp } ∧ t.sp.val = k.val ∧
      (0xFFE < t.pc.toNat → t.NextFetchFaults)

/-- A CALL and the RET that matches it come back behind the CALL with the stack's occupied part as it was
(R152, R154). -/
def Obligations.CallThenReturn : Prop :=
  ∀ (s : State) (nnn : Addr12), s.sp.val < 16 →
    ∃ t u, exec (.call nnn) s = .next t ∧ exec .ret t = .next u ∧ u.pc = s.pc + 2 ∧
      ({ s with pc := s.pc + 2 } : State).SameButStale u

/-! ## Registers and the ALU (42_alu.md) -/

/-- 6XNN, 7XNN and 8XY0: V[x] becomes nn, (V[x] + nn) mod 256, V[y]; no other register, VF included, and
nothing else but `pc` changes (R201, R202, R203). -/
def Obligations.LoadAndAddImmediate : Prop :=
  ∀ (s : State) (x y : Reg) (nn : Byte),
    (∃ t, exec (.ldImm x nn) s = .next t ∧ t = { s with pc := s.pc + 2, v := t.v } ∧
      ∀ r, t.readV r = if r = x then nn else s.readV r) ∧
    (∃ t, exec (.addImm x nn) s = .next t ∧ t = { s with pc := s.pc + 2, v := t.v } ∧
      (t.readV x).toNat = ((s.readV x).toNat + nn.toNat) % 256 ∧
      ∀ r, r ≠ x → t.readV r = s.readV r) ∧
    (∃ t, exec (.ldReg x y) s = .next t ∧ t = { s with pc := s.pc + 2, v := t.v } ∧
      ∀ r, t.readV r = if r = x then s.readV y else s.readV r)

/-- 8XY1, 8XY2 and 8XY3: each bit of V[x] becomes the or, and, exclusive or of the bits; VF is not reset and
nothing else but `pc` changes (R204, R205, R206; that VF stays is the spec's decision D2). -/
def Obligations.BitwiseOperations : Prop :=
  ∀ (s : State) (x y : Reg),
    (∃ t, exec (.or x y) s = .next t ∧ t = { s with pc := s.pc + 2, v := t.v } ∧
      (∀ k < 8, (t.readV x).getLsbD k = ((s.readV x).getLsbD k || (s.readV y).getLsbD k)) ∧
      ∀ r, r ≠ x → t.readV r = s.readV r) ∧
    (∃ t, exec (.and x y) s = .next t ∧ t = { s with pc := s.pc + 2, v := t.v } ∧
      (∀ k < 8, (t.readV x).getLsbD k = ((s.readV x).getLsbD k && (s.readV y).getLsbD k)) ∧
      ∀ r, r ≠ x → t.readV r = s.readV r) ∧
    (∃ t, exec (.xor x y) s = .next t ∧ t = { s with pc := s.pc + 2, v := t.v } ∧
      (∀ k < 8, (t.readV x).getLsbD k = ((s.readV x).getLsbD k != (s.readV y).getLsbD k)) ∧
      ∀ r, r ≠ x → t.readV r = s.readV r)

/-- 8XY4: V[x] becomes the sum modulo 256 and VF, written last, the carry; with x = F the carry remains
(R207; the write order is the spec's decision D8). -/
def Obligations.AddWithCarry : Prop :=
  ∀ (s : State) (x y : Reg),
    ∃ t, exec (.addReg x y) s = .next t ∧ t = { s with pc := s.pc + 2, v := t.v } ∧
      (x ≠ VF → (t.readV x).toNat = ((s.readV x).toNat + (s.readV y).toNat) % 256) ∧
      t.readV VF = (if 0xFF < (s.readV x).toNat + (s.readV y).toNat then 1 else 0) ∧
      ∀ r, r ≠ x → r ≠ VF → t.readV r = s.readV r

/-- 8XY5 and 8XY7: V[x] becomes the difference modulo 256 and VF, written last, 1 exactly when there is no
borrow, so equal operands give 0 with VF = 1 (R208, R210; the write order is the spec's decision D8). -/
def Obligations.SubtractWithNotBorrow : Prop :=
  ∀ (s : State) (x y : Reg),
    (∃ t, exec (.sub x y) s = .next t ∧ t = { s with pc := s.pc + 2, v := t.v } ∧
      (x ≠ VF → ((t.readV x).toNat : Int) = ((s.readV x).toNat - (s.readV y).toNat : Int) % 256) ∧
      t.readV VF = (if (s.readV y).toNat ≤ (s.readV x).toNat then 1 else 0) ∧
      ∀ r, r ≠ x → r ≠ VF → t.readV r = s.readV r) ∧
    (∃ t, exec (.subn x y) s = .next t ∧ t = { s with pc := s.pc + 2, v := t.v } ∧
      (x ≠ VF → ((t.readV x).toNat : Int) = ((s.readV y).toNat - (s.readV x).toNat : Int) % 256) ∧
      t.readV VF = (if (s.readV x).toNat ≤ (s.readV y).toNat then 1 else 0) ∧
      ∀ r, r ≠ x → r ≠ VF → t.readV r = s.readV r)

/-- 8XY6 and 8XYE: VF gets the bit about to be dropped and V[x] shifts by one; with x = F the shift then reads
the flag just written, leaving 0x00, or 0x02 times the old bit 7; V[y] plays no part (R209, R211, R98; the
x = F case is the spec's decision D9). -/
def Obligations.ShiftsWriteTheFlagFirst : Prop :=
  ∀ (s : State) (x y : Reg),
    (∃ t, exec (.shr x y) s = .next t ∧ t = { s with pc := s.pc + 2, v := t.v } ∧
      (x ≠ VF → (t.readV x).toNat = (s.readV x).toNat / 2 ∧
        (t.readV VF).toNat = (s.readV x).toNat % 2) ∧
      (x = VF → t.readV VF = 0) ∧
      ∀ r, r ≠ x → r ≠ VF → t.readV r = s.readV r) ∧
    (∃ t, exec (.shl x y) s = .next t ∧ t = { s with pc := s.pc + 2, v := t.v } ∧
      (x ≠ VF → (t.readV x).toNat = (s.readV x).toNat * 2 % 256 ∧
        (t.readV VF).toNat = (s.readV x).toNat / 128) ∧
      (x = VF → (t.readV VF).toNat = (s.readV VF).toNat / 128 * 2) ∧
      ∀ r, r ≠ x → r ≠ VF → t.readV r = s.readV r)

/-- CXNN: V[x] becomes the draw under the mask, for whatever value the draw has, and one draw is consumed
(R212; the free draw is the spec's decision D11 and log 2). -/
def Obligations.RandomByteUnderMask : Prop :=
  ∀ (s : State) (x : Reg) (nn : Byte),
    ∃ t, exec (.rnd x nn) s = .next t ∧
      t = { s with pc := s.pc + 2, v := t.v, draws := s.draws + 1 } ∧
      (∀ k < 8, (t.readV x).getLsbD k = ((Config.rnd s.draws).getLsbD k && nn.getLsbD k)) ∧
      (nn = 0 → t.readV x = 0) ∧
      ∀ r, r ≠ x → t.readV r = s.readV r

/-! ## The index register and memory (43_index_memory.md) -/

/-- ANNN and FX29: I becomes nnn, V[x] * 5 without masking; nothing else but `pc` changes (R250, R252). -/
def Obligations.LoadIndex : Prop :=
  ∀ (s : State) (x : Reg) (nnn : Addr12),
    (∃ t, exec (.ldI nnn) s = .next t ∧ t = { s with pc := s.pc + 2, i := t.i } ∧
      t.i.toNat = nnn.toNat) ∧
    (∃ t, exec (.ldF x) s = .next t ∧ t = { s with pc := s.pc + 2, i := t.i } ∧
      t.i.toNat = (s.readV x).toNat * 5)

/-- FX1E: I becomes (I + V[x]) mod 65536, with no reduction to 12 bits, no fault and no flag (R251; that VF
stays is the spec's decision D2). -/
def Obligations.AddToIndex : Prop :=
  ∀ (s : State) (x : Reg),
    ∃ t, exec (.addI x) s = .next t ∧ t = { s with pc := s.pc + 2, i := t.i } ∧
      t.i.toNat = (s.i.toNat + (s.readV x).toNat) % 65536

/-- FX33 inside the memory: three decimal digits of V[x], hundreds first, at I to I + 2; every other byte and
everything but `pc` is unchanged, I among it (R253, R63; the unbounded range check is the spec's decision
D5). -/
def Obligations.StoreDecimalDigits : Prop :=
  ∀ (s : State) (x : Reg), s.i.toNat + 2 ≤ 0xFFF →
    ∃ t, exec (.ldB x) s = .next t ∧ t = { s with pc := s.pc + 2, mem := t.mem } ∧
      t.mem.font = s.mem.font ∧
      (t.mem.read s.i.toNat).toNat * 100 + (t.mem.read (s.i.toNat + 1)).toNat * 10 +
        (t.mem.read (s.i.toNat + 2)).toNat = (s.readV x).toNat ∧
      (t.mem.read s.i.toNat).toNat ≤ 2 ∧ (t.mem.read (s.i.toNat + 1)).toNat ≤ 9 ∧
      (t.mem.read (s.i.toNat + 2)).toNat ≤ 9 ∧
      ∀ a, a < s.i.toNat ∨ s.i.toNat + 2 < a → t.mem.read a = s.mem.read a

/-- FX55 inside the memory: V0 to Vx at I to I + x; every other byte and everything but `pc` is unchanged, I
among it (R254, R63; that I stays is the spec's decision D2, the unbounded check D5). -/
def Obligations.StoreRegisterBlock : Prop :=
  ∀ (s : State) (x : Reg), s.i.toNat + x.val ≤ 0xFFF →
    ∃ t, exec (.ldStore x) s = .next t ∧ t = { s with pc := s.pc + 2, mem := t.mem } ∧
      t.mem.font = s.mem.font ∧
      (∀ k : Reg, k ≤ x → t.mem.read (s.i.toNat + k.val) = s.readV k) ∧
      ∀ a, a < s.i.toNat ∨ s.i.toNat + x.val < a → t.mem.read a = s.mem.read a

/-- FX65 inside the memory: V0 to Vx from I to I + x; every other register and everything but `pc` is
unchanged, I among it (R255, R63; that I stays is the spec's decision D2, the unbounded check D5). -/
def Obligations.LoadRegisterBlock : Prop :=
  ∀ (s : State) (x : Reg), s.i.toNat + x.val ≤ 0xFFF →
    ∃ t, exec (.ldLoad x) s = .next t ∧ t = { s with pc := s.pc + 2, v := t.v } ∧
      ∀ k : Reg, t.readV k = if k ≤ x then s.mem.read (s.i.toNat + k.val) else s.readV k

/-- Storing V0 to Vx and loading them back into any register file, with memory and I intact, gives the
original values (R255). -/
def Obligations.StoreThenLoadRoundTrip : Prop :=
  ∀ (s u : State) (x : Reg), s.i.toNat + x.val ≤ 0xFFF →
    ∃ t, exec (.ldStore x) s = .next t ∧
      (u.mem = t.mem → u.i = t.i → ∃ r, exec (.ldLoad x) u = .next r ∧
        ∀ k : Reg, k ≤ x → r.readV k = s.readV k)

/-- What FX33, FX55 or a LOAD has stored is what the next cycle fetches, whether it covers both bytes of that
word, one of them or none (20_memory.md R69, marked derived there; the unbounded range check is the spec's decision
D5, the bound on the image D15). -/
def Obligations.StoreThenFetchSeesIt : Prop :=
  ∀ s : State,
    (∀ x, s.pc.toNat + 3 ≤ 0xFFF → s.i.toNat + 2 ≤ 0xFFF →
      let digits := [BitVec.ofNat 8 ((s.readV x).toNat / 100), BitVec.ofNat 8 ((s.readV x).toNat / 10 % 10),
        BitVec.ofNat 8 ((s.readV x).toNat % 10)]
      ∃ t, exec (.ldB x) s = .next t ∧
        t.fetch? = some (wordOfBytes (s.mem.overlaid s.i.toNat digits (s.pc.toNat + 2))
          (s.mem.overlaid s.i.toNat digits (s.pc.toNat + 3)))) ∧
    (∀ x : Reg, s.pc.toNat + 3 ≤ 0xFFF → s.i.toNat + x.val ≤ 0xFFF →
      let regs := s.v.toList.take (x.val + 1)
      ∃ t, exec (.ldStore x) s = .next t ∧
        t.fetch? = some (wordOfBytes (s.mem.overlaid s.i.toNat regs (s.pc.toNat + 2))
          (s.mem.overlaid s.i.toNat regs (s.pc.toNat + 3)))) ∧
    (∀ data : List Byte, s.status = .running → s.pc.toNat + 1 ≤ 0xFFF → data.length ≤ 3584 →
      ∃ t, perform (.load data) s = .next (t, .ok) ∧
        t.fetch? = some (wordOfBytes (s.mem.overlaid 0x200 data s.pc.toNat)
          (s.mem.overlaid 0x200 data (s.pc.toNat + 1))))

/-- Two memories in canonical form, with one FONT, that read alike at every address of the memory are equal
data (the model's representation, log 8). -/
def Obligations.CanonicalMemoriesAreEqual : Prop :=
  ∀ m n : Memory, m.wf = true → n.wf = true → m.font = n.font →
    (∀ a < 0x1000, m.read a = n.read a) → m = n

/-! ## The display (44_display.md) -/

/-- 00E0: every pixel is off and nothing else but `pc` changes, VF among it (R302). -/
def Obligations.ClearTheDisplay : Prop :=
  ∀ s : State, ∃ t, exec .cls s = .next t ∧ t = { s with pc := s.pc + 2, display := t.display } ∧
    ∀ y x, t.display.pixel y x = false

/-- DXYN inside the memory: a pixel is inverted exactly when a set sprite bit falls on it, both coordinates
wrapping, and VF, written last, is 1 exactly when such a pixel was lit; the coordinates are the old register
values; n = 0 draws nothing, whatever I is, and clears VF (R303, R301; the spec's decisions D5, D18). -/
def Obligations.DrawSprite : Prop :=
  ∀ (s : State) (x y : Reg) (n : Fin 16), n = 0 ∨ s.i.toNat + n.val - 1 ≤ 0xFFF →
    ∃ t, exec (.drw x y n) s = .next t ∧
      t = { s with pc := s.pc + 2, v := t.v, display := t.display } ∧
      (∀ py px, (s.SpriteOn (s.readV x).toNat (s.readV y).toNat n.val py px →
          t.display.pixel py px = !s.display.pixel py px) ∧
        (¬ s.SpriteOn (s.readV x).toNat (s.readV y).toNat n.val py px →
          t.display.pixel py px = s.display.pixel py px)) ∧
      (t.readV VF = 0 ∨ t.readV VF = 1) ∧
      (t.readV VF = 1 ↔ ∃ py px, s.SpriteOn (s.readV x).toNat (s.readV y).toNat n.val py px ∧
        s.display.pixel py px = true) ∧
      ∀ r, r ≠ VF → t.readV r = s.readV r

/-- The pixels under the set bits of a sprite of at most 15 rows are all different, and drawing them in any other
order gives the same display and the same collision (R304, marked derived there). -/
def Obligations.SpriteBitsFallOnDifferentPixels : Prop :=
  ∀ (xc yc : Nat) (sprite : List Byte), sprite.length ≤ 15 →
    (spritePixels xc yc sprite).Nodup ∧
    ∀ (d : Display) (ps : List (Fin 32 × Fin 64)), ps.Perm (spritePixels xc yc sprite) →
      ps.foldl Canvas.touch ⟨d, false⟩ = d.draw xc yc sprite

/-- Drawing the same sprite twice at the same place restores the display, and the second collision flag is 1
exactly when a sprite bit falls on a pixel that is on after the first draw (R304, marked derived there). -/
def Obligations.DrawingTwiceRestores : Prop :=
  ∀ (s : State) (x y : Reg) (n : Fin 16), x ≠ VF → y ≠ VF → s.i.toNat + n.val ≤ 0x1000 →
    ∃ t u, exec (.drw x y n) s = .next t ∧ exec (.drw x y n) t = .next u ∧ u.display = s.display ∧
      (u.readV VF = 1 ↔ ∃ py px, s.SpriteOn (s.readV x).toNat (s.readV y).toNat n.val py px ∧
        t.display.pixel py px = true)

/-! ## Keys and timers (45_keys_timers.md) -/

/-- EX9E and EXA1 with V[x] at most 0xF: only `pc` changes, by 4 when the key V[x] is pressed (released), by 2
when not (R330, R331). -/
def Obligations.KeySkips : Prop :=
  ∀ (s : State) (x : Reg) (k : Key), (s.readV x).toNat = k.val →
    exec (.skp x) s = .next { s with pc := if s.readKey k = true then s.pc + 4 else s.pc + 2 } ∧
    exec (.sknp x) s = .next { s with pc := if s.readKey k = false then s.pc + 4 else s.pc + 2 }

/-- FX0A: with no key pressed the state is unchanged; with one pressed V[x] gets the lowest-indexed pressed key
and nothing else but `pc` changes (R332). -/
def Obligations.KeyWait : Prop :=
  ∀ (s : State) (x : Reg),
    ((∀ k, s.readKey k = false) → exec (.ldVxK x) s = .next s) ∧
    (∀ k : Key, s.readKey k = true → (∀ j < k, s.readKey j = false) →
      ∃ t, exec (.ldVxK x) s = .next t ∧ t = { s with pc := s.pc + 2, v := t.v } ∧
        (t.readV x).toNat = k.val ∧ ∀ r, r ≠ x → t.readV r = s.readV r)

/-- FX07 and FX15: V[x] becomes DT, DT becomes V[x], and nothing else but `pc` changes (R333, R334). -/
def Obligations.DelayTimerAccess : Prop :=
  ∀ (s : State) (x : Reg),
    (∃ t, exec (.ldVxDt x) s = .next t ∧ t = { s with pc := s.pc + 2, v := t.v } ∧
      ∀ r, t.readV r = if r = x then s.dt else s.readV r) ∧
    exec (.ldDtVx x) s = .next { s with pc := s.pc + 2, dt := s.readV x }

/-- FX18: ST becomes V[x], the register of the X field, and nothing else but `pc` changes (R335; that it is not
the Y nibble's register is the spec's decision D7). -/
def Obligations.SetSoundTimer : Prop :=
  ∀ (s : State) (x : Reg), exec (.ldStVx x) s = .next { s with pc := s.pc + 2, st := s.readV x }

/-- No instruction reads ST: with another value in ST an instruction does the same to all other state
(10_state.md R33). -/
def Obligations.NoInstructionReadsTheSoundTimer : Prop :=
  ∀ (i : Instr) (s t : State) (b : Byte), exec i s = .next t →
    ∃ c, (c = b ∨ c = t.st) ∧ exec i (s.setST b) = .next (t.setST c)

/-! ## The host interface (40_cycle_and_interface.md, 60_exceptions.md, 70_reset_and_hazards.md) -/

/-- TIMER_TICK while RUNNING counts both timers toward 0 in one operation, stays at 0, changes nothing else and
reports sound_expired exactly when ST was 1; while HALTED it is rejected with no change (60_exceptions.md
R385; the reply is the spec's decision D19, the rejection D3 and D20; log 12). -/
def Obligations.TimerTickCountsBothDown : Prop :=
  ∀ s : State,
    (s.status = .running → ∃ t expired, perform .timerTick s = .next (t, .ticked expired) ∧
      t = { s with dt := t.dt, st := t.st } ∧ t.dt.toNat = s.dt.toNat - 1 ∧ t.st.toNat = s.st.toNat - 1 ∧
      (expired = true ↔ s.st.toNat = 1)) ∧
    (s.status = .halted → perform .timerTick s = .next (s, .rejected .halted))

/-- LOAD while RUNNING of an image of at most 3584 bytes puts byte k at 0x200 + k and changes nothing else (R130;
the spec's decision D15). -/
def Obligations.LoadCopiesTheImage : Prop :=
  ∀ (s : State) (data : List Byte), s.status = .running → data.length ≤ 3584 →
    ∃ t, perform (.load data) s = .next (t, .ok) ∧ t = { s with mem := t.mem } ∧
      t.mem.font = s.mem.font ∧
      (∀ k (h : k < data.length), t.mem.read (0x200 + k) = data[k]) ∧
      ∀ a, a < 0x200 ∨ 0x200 + data.length ≤ a → t.mem.read a = s.mem.read a

/-- A LOAD or KEY whose arguments break the caller contract is rejected, changes nothing and does not halt the
core (R122). -/
def Obligations.ContractViolationsAreRejected : Prop :=
  ∀ s : State, s.status = .running →
    (∀ data : List Byte, 3584 < data.length →
      perform (.load data) s = .next (s, .rejected .imageTooLarge)) ∧
    (∀ index pressed, 15 < index → perform (.key index pressed) s = .next (s, .rejected .keyIndexInvalid))

/-- KEY while RUNNING sets its slot to `pressed` and changes nothing else (R131; the spec's decision D16). -/
def Obligations.KeySetsItsSlot : Prop :=
  ∀ (s : State) (k : Key) (pressed : Bool), s.status = .running →
    ∃ t, perform (.key k.val pressed) s = .next (t, .ok) ∧ t = { s with keys := t.keys } ∧
      ∀ j, t.readKey j = if j = k then pressed else s.readKey j

/-- READ_DISPLAY, in every status, returns pixel D[y][x] as bit y * 64 + x and changes nothing (R132). -/
def Obligations.ReadDisplayIsRowMajor : Prop :=
  ∀ s : State, ∃ bits, perform .readDisplay s = .next (s, .display bits) ∧
    ∀ (y : Fin 32) (x : Fin 64), bits[y.val * 64 + x.val]? = some (s.display.pixel y x)

/-- READ_SOUND and READ_STATUS, in every status, return ST with sound_on = (ST != 0), and the status with the
record, and change nothing (R133, 60_exceptions.md R387; the spec's decisions D1, D19). -/
def Obligations.ReadSoundAndStatus : Prop :=
  ∀ s : State,
    (∃ on, perform .readSound s = .next (s, .sound s.st on) ∧ (on = true ↔ s.st.toNat ≠ 0)) ∧
    perform .readStatus s = .next (s, .status s.status s.fault)

/-- RESET, in every status, gives the reset state whatever came before: registers, stack, display, keys and
timers zero, `pc` 0x200, SP 0, memory FONT below 0x050 and zero above, RUNNING, record cleared
(70_reset_and_hazards.md R420; the spec's decisions D3, D17, D21; the parameters stay, log 5). -/
def Obligations.ResetRestoresEverything : Prop :=
  ∀ s : State, ∃ t, perform .reset s = .next (t, .ok) ∧
    (∀ x, t.readV x = 0) ∧ t.pc = 0x200 ∧ t.i = 0 ∧ t.sp.val = 0 ∧ (∀ k : Fin 16, t.stack[k] = 0) ∧
    (∀ a (h : a < 80), t.mem.read a = s.mem.font[a]) ∧ (∀ a, 80 ≤ a → t.mem.read a = 0) ∧
    (∀ y x, t.display.pixel y x = false) ∧ (∀ k, t.readKey k = false) ∧ t.dt = 0 ∧ t.st = 0 ∧
    t.status = .running ∧ t.fault = ⟨.none, 0, none, 0⟩ ∧
    t.mem.font = s.mem.font ∧ t.draws = s.draws ∧ t.pending = s.pending ∧
    (∀ u : State, u.mem.font = s.mem.font → u.draws = s.draws → u.pending = s.pending →
      perform .reset u = .next (t, .ok))

/-- While HALTED every operation but RESET changes nothing, and STEP, LOAD, KEY and TIMER_TICK are rejected
(60_exceptions.md R374, R129; the spec's decisions D3, D20). -/
def Obligations.HaltedAcceptsOnlyResetAndReads : Prop :=
  ∀ (s : State) (op : HostOp), s.status = .halted → op ≠ .reset →
    ∃ reply, perform op s = .next (s, reply) ∧
      (op ≠ .readDisplay → op ≠ .readSound → op ≠ .readStatus → reply = .rejected .halted)

/-- A HALTED core stays as it is through any number of steps whose pending operations hold no RESET; only the
pending list shrinks (60_exceptions.md R374; the spec's decision D20). -/
def Obligations.HaltedStaysUntilReset : Prop :=
  ∀ (k : Nat) (s : State), s.status = .halted → HostOp.reset ∉ s.pending →
    Host.Core.run Sys2Proof.core k s = .next { s with pending := s.pending.drop k }

/-- A pending STEP answers OK when the core goes on, the recorded fault when it halts, and rejected when it was
HALTED already (R123; the spec's decisions D3, D20). -/
def Obligations.StepReplies : Prop :=
  ∀ s : State, ∃ t reply, perform .step s = .next (t, reply) ∧ cycle s = .next t ∧
    (s.status = .halted → t = s ∧ reply = .rejected .halted) ∧
    (s.status = .running → t.status = .running → reply = .ok) ∧
    (s.status = .running → t.status = .halted → reply = .fault t.fault)

/-- The operations the host has issued are performed one at a time, oldest first, each step performing one
(R121; the pending list is the model's, log 3). -/
def Obligations.PendingOperationsRunInOrder : Prop :=
  ∀ (s : State) (op : HostOp) (later : List HostOp), s.pending = op :: later →
    ∃ t reply, perform op { s with pending := later } = .next (t, reply) ∧ step s = .next t ∧
      t.pending = later

/-! ## The whole machine -/

/-- The invariant holds after reset, whatever FONT is. -/
def Obligations.InvariantAtReset : Prop := ∀ font, (State.resetWith font).Inv

/-- Every step, of the core or of the host, keeps the invariant: canonical memory, `pc` at most 0x10FE
(10_state.md R22), stack slots at most 0x1000, the record cleared while RUNNING and true while HALTED (10_state.md
R34, 60_exceptions.md R370, R372; the spec's decisions D3, D12; the memory form is log 8). -/
def Obligations.EveryStepKeepsTheInvariant : Prop :=
  ∀ s t : State, s.Inv → step s = .next t → t.Inv

/-- Stale stack slots cannot be observed: from two states that differ only in them, every operation answers the
same and leaves two such states, and so does every step (10_state.md R36, marked derived there). -/
def Obligations.StaleSlotsAreUnobservable : Prop :=
  ∀ s t : State, s.SameButStale t →
    (∃ s' t', step s = .next s' ∧ step t = .next t' ∧ s'.SameButStale t') ∧
    ∀ op, ∃ s' t' reply, perform op s = .next (s', reply) ∧ perform op t = .next (t', reply) ∧
      s'.SameButStale t'

/-- A RUNNING core with nothing pending steps over two zero bytes as a NOP, changing `pc` alone. So it runs from
any `pc` from which every byte is zero up to the end of memory, and then faults FETCH_OUT_OF_RANGE there (at 0x1000 from
an even `pc`) with all else unchanged; the reset memory is such a memory from 0x050 on, whatever FONT is
(70_reset_and_hazards.md R430, marked derived there; the fault's form is the spec's decisions D3, D4; a step with
nothing pending is log 3). -/
def Obligations.UnloadedMemoryRunsAsNops : Prop :=
  (∀ s : State, s.pending = [] → s.status = .running →
    (s.pc.toNat + 1 ≤ 0xFFF → s.mem.read s.pc.toNat = 0 → s.mem.read (s.pc.toNat + 1) = 0 →
      step s = .next { s with pc := s.pc + 2 }) ∧
    ((∀ a, s.pc.toNat ≤ a → a ≤ 0xFFF → s.mem.read a = 0) → ∀ k, s.pc.toNat + 2 * k ≤ 0x1000 →
      let stop := s.pc.toNat + 2 * k
      Host.Core.run Sys2Proof.core k s = .next { s with pc := BitVec.ofNat 16 stop } ∧
      (0xFFF ≤ stop → Host.Core.run Sys2Proof.core (k + 1) s = .next { s with
        pc := BitVec.ofNat 16 stop
        status := .halted
        fault := ⟨.fetchOutOfRange, BitVec.ofNat 16 stop, none, BitVec.ofNat 17 stop⟩ }))) ∧
  ∀ font a, 80 ≤ a → (State.resetWith font).mem.read a = 0
end

