-- ==== Sys2Proof/Laws/Display.lean ====
section
/-! SUPPORT. The laws of the display: reading a pixel after inverting one, and all that drawing a sprite
does (44_display.md R303, R304). -/

namespace Sys2Proof.Machine

@[simp] theorem Display.clear_pixel (y : Fin 32) (x : Fin 64) : Display.clear.pixel y x = false := by
  simp [Display.clear, Display.pixel]

/-- Inverting a pixel changes that pixel alone. -/
theorem Display.flip_pixel (d : Display) (y y' : Fin 32) (x x' : Fin 64) :
    (d.flip y x).pixel y' x' = if y' = y ∧ x' = x then !d.pixel y x else d.pixel y' x' := by
  simp only [Display.flip, Display.pixel, Fin.getElem_fin, Vector.getElem_set, Fin.ext_iff]
  by_cases hy : y.val = y'.val
  · by_cases hx : x.val = x'.val
    · simp [hy, hx]
    · simp [hy, hx, Ne.symm hx]
  · simp [hy, Ne.symm hy]

/-- Two displays with the same pixels are the same. -/
theorem Display.ext_pixel {d e : Display} (h : ∀ y x, d.pixel y x = e.pixel y x) : d = e := by
  apply Vector.ext
  intro y hy
  apply Vector.ext
  intro x hx
  exact h ⟨y, hy⟩ ⟨x, hx⟩

/-- Touching two pixels gives the same in either order. -/
theorem Canvas.touch_comm (k : Canvas) (p q : Fin 32 × Fin 64) :
    (k.touch p).touch q = (k.touch q).touch p := by
  by_cases hpq : p = q
  · rw [hpq]
  have hne : ∀ y x, ¬ ((y = p.1 ∧ x = p.2) ∧ (y = q.1 ∧ x = q.2)) := by
    rintro y x ⟨⟨hp1, hp2⟩, hq1, hq2⟩
    exact hpq (Prod.ext (hp1.symm.trans hq1) (hp2.symm.trans hq2))
  have hqp : ¬ (q.1 = p.1 ∧ q.2 = p.2) := fun h => hpq (Prod.ext h.1.symm h.2.symm)
  have hpq' : ¬ (p.1 = q.1 ∧ p.2 = q.2) := fun h => hpq (Prod.ext h.1 h.2)
  simp only [Canvas.touch, Canvas.mk.injEq, Display.flip_pixel, hqp, hpq', if_false]
  refine ⟨Display.ext_pixel fun y x => ?_, Bool.or_right_comm ..⟩
  have := hne y x
  simp only [Display.flip_pixel, hqp, hpq', if_false]
  split <;> split <;> first | rfl | tauto

/-- Touching a list of different pixels inverts exactly those, and hits exactly when one of them was lit. -/
theorem foldl_touch (ps : List (Fin 32 × Fin 64)) (hnd : ps.Nodup) (k : Canvas) :
    (∀ y x, (ps.foldl Canvas.touch k).display.pixel y x =
      (k.display.pixel y x != decide ((y, x) ∈ ps))) ∧
    (ps.foldl Canvas.touch k).hit = (k.hit || ps.any fun p => k.display.pixel p.1 p.2) := by
  induction ps generalizing k with
  | nil => simp
  | cons p ps ih =>
    obtain ⟨hp, hnd⟩ := List.nodup_cons.mp hnd
    obtain ⟨hpix, hhit⟩ := ih hnd (k.touch p)
    refine ⟨fun y x => ?_, ?_⟩
    · rw [List.foldl_cons, hpix]
      simp only [Canvas.touch, Display.flip_pixel, List.mem_cons]
      by_cases hyx : (y, x) = p
      · subst hyx; simp [hp]
      · have : ¬ (y = p.1 ∧ x = p.2) := fun h => hyx (Prod.ext h.1 h.2)
        simp [hyx, this]
    · rw [List.foldl_cons, hhit]
      have hsame : (ps.any fun q => (k.touch p).display.pixel q.1 q.2) =
          ps.any fun q => k.display.pixel q.1 q.2 := by
        rw [Bool.eq_iff_iff]
        simp only [List.any_eq_true, Canvas.touch, Display.flip_pixel]
        constructor <;> rintro ⟨q, hq, h⟩ <;> refine ⟨q, hq, ?_⟩ <;>
        · have : ¬ (q.1 = p.1 ∧ q.2 = p.2) := fun h => hp (Prod.ext h.1 h.2 ▸ hq)
          simpa [this] using h
      rw [hsame]
      simp [Canvas.touch, Bool.or_assoc]

/-- Which pixels a sprite's set bits land on. -/
theorem mem_spritePixels {xc yc : Nat} {bs : List Byte} {p : Fin 32 × Fin 64} :
    p ∈ spritePixels xc yc bs ↔
      ∃ r, ∃ h : r < bs.length, ∃ c < 8, bs[r].getLsbD (7 - c) = true ∧
        p = (wrapRow (yc + r), wrapCol (xc + c)) := by
  induction bs generalizing yc with
  | nil => simp [spritePixels]
  | cons b bs ih =>
    simp only [spritePixels, List.mem_append, rowPixels, List.mem_map, List.mem_filter, List.mem_range, ih]
    constructor
    · rintro (⟨c, ⟨hc, hb⟩, rfl⟩ | ⟨r, hr, c, hc, hb, rfl⟩)
      · exact ⟨0, by simp, c, hc, hb, by simp⟩
      · exact ⟨r + 1, by simpa using hr, c, hc, by simpa using hb, by
          rw [show yc + 1 + r = yc + (r + 1) by omega]⟩
    · rintro ⟨r, hr, c, hc, hb, rfl⟩
      cases r with
      | zero => exact .inl ⟨c, ⟨hc, by simpa using hb⟩, by simp⟩
      | succ r =>
        refine .inr ⟨r, by simpa using hr, c, hc, by simpa using hb, ?_⟩
        rw [show yc + 1 + r = yc + (r + 1) by omega]

theorem wrapRow_inj {a i j : Nat} (hi : i < 32) (hj : j < 32) (h : wrapRow (a + i) = wrapRow (a + j)) :
    i = j := by
  have := congrArg Fin.val h
  simp only [wrapRow, Fin.ofNat] at this
  omega

theorem wrapCol_inj {a i j : Nat} (hi : i < 64) (hj : j < 64) (h : wrapCol (a + i) = wrapCol (a + j)) :
    i = j := by
  have := congrArg Fin.val h
  simp only [wrapCol, Fin.ofNat] at this
  omega

/-- A sprite of at most 32 rows touches no pixel twice (44_display.md R304). -/
theorem nodup_spritePixels (xc yc : Nat) (bs : List Byte) (h : bs.length ≤ 32) :
    (spritePixels xc yc bs).Nodup := by
  induction bs generalizing yc with
  | nil => simp [spritePixels]
  | cons b bs ih =>
    simp only [List.length_cons] at h
    simp only [spritePixels]
    refine List.nodup_append.mpr ⟨?_, ih (yc + 1) (by omega), ?_⟩
    · refine List.Nodup.map_on ?_ (List.nodup_range.filter _)
      intro c hc c' hc' he
      simp only [List.mem_filter, List.mem_range] at hc hc'
      exact wrapCol_inj (by omega) (by omega) (Prod.ext_iff.mp he).2
    · rintro p hp q hq rfl
      obtain ⟨c, -, rfl⟩ := List.mem_map.mp hp
      obtain ⟨r, hr, c', -, -, he⟩ := mem_spritePixels.mp hq
      have := wrapRow_inj (a := yc) (i := 0) (j := 1 + r) (by omega) (by omega)
        (by simpa [Nat.add_assoc] using (Prod.ext_iff.mp he).1)
      omega

/-- All that drawing a sprite of at most 32 rows does: each pixel under a set bit is inverted, no other, and
the collision flag says whether one of them was lit before. -/
theorem Display.draw_spec (d : Display) (xc yc : Nat) (bs : List Byte) (h : bs.length ≤ 32) :
    (∀ y x, (d.draw xc yc bs).display.pixel y x =
      (d.pixel y x != decide ((y, x) ∈ spritePixels xc yc bs))) ∧
    (d.draw xc yc bs).hit = (spritePixels xc yc bs).any fun p => d.pixel p.1 p.2 := by
  have := foldl_touch _ (nodup_spritePixels xc yc bs h) { display := d, hit := false }
  simpa [Display.draw] using this

end Sys2Proof.Machine
end

