-- ==== Sys2Proof/Laws/Encoding.lean ====
section
/-! SUPPORT. The laws of encodings: words and fields as numbers, the fields of each format, the two bytes of
a word, and that every term of `Instr` is well-formed (30_encoding.md R91, R92). -/

namespace Sys2Proof

/-- Concatenation as arithmetic: the left part is the high one (00_scope.md R9). -/
theorem toNat_append_eq {n m : Nat} (a : BitVec n) (b : BitVec m) :
    (a ++ b).toNat = a.toNat * 2 ^ m + b.toNat := by
  rw [BitVec.toNat_append, ← Nat.shiftLeft_add_eq_or_of_lt b.isLt, Nat.shiftLeft_eq]

theorem toNat_regBits (r : Fin 16) : (regBits r).toNat = r.val := rfl

/-! ## The formats as numbers -/

theorem toNat_formatA (op : BitVec 4) (a : Addr12) :
    (formatA op a).toNat = op.toNat * 4096 + a.toNat := toNat_append_eq op a

theorem toNat_formatXK (op : BitVec 4) (x : Reg) (k : Byte) :
    (formatXK op x k).toNat = op.toNat * 4096 + x.val * 256 + k.toNat := by
  have h : (formatXK op x k).toNat = (op ++ regBits x).toNat * 2 ^ 8 + k.toNat := toNat_append_eq _ k
  rw [h, toNat_append_eq, toNat_regBits]
  omega

theorem toNat_formatXYN (op : BitVec 4) (x y : Reg) (n : BitVec 4) :
    (formatXYN op x y n).toNat = op.toNat * 4096 + x.val * 256 + y.val * 16 + n.toNat := by
  have h : (formatXYN op x y n).toNat = (op ++ regBits x ++ regBits y).toNat * 2 ^ 4 + n.toNat :=
    toNat_append_eq _ n
  rw [h, toNat_append_eq, toNat_append_eq, toNat_regBits, toNat_regBits]
  omega

theorem toNat_wordOfBytes (hi lo : Byte) : (wordOfBytes hi lo).toNat = hi.toNat * 256 + lo.toNat :=
  toNat_append_eq hi lo

/-! ## The fields as numbers -/

theorem toNat_fieldOp (w : Word) : (fieldOp w).toNat = w.toNat / 4096 := by
  simp [fieldOp, BitVec.extractLsb'_toNat, Nat.shiftRight_eq_div_pow]; omega
theorem val_fieldX (w : Word) : (fieldX w).val = w.toNat / 256 % 16 := by
  simp [fieldX, Nat.shiftRight_eq_div_pow]
theorem val_fieldY (w : Word) : (fieldY w).val = w.toNat / 16 % 16 := by
  simp [fieldY, Nat.shiftRight_eq_div_pow]
theorem val_fieldN (w : Word) : (fieldN w).val = w.toNat % 16 := by
  simp [fieldN]
theorem toNat_fieldNN (w : Word) : (fieldNN w).toNat = w.toNat % 256 := by
  simp [fieldNN, BitVec.extractLsb'_toNat]
theorem toNat_fieldNNN (w : Word) : (fieldNNN w).toNat = w.toNat % 4096 := by
  simp [fieldNNN, BitVec.extractLsb'_toNat]
theorem toNat_highByte (w : Word) : (highByte w).toNat = w.toNat / 256 := by
  simp [highByte, BitVec.extractLsb'_toNat, Nat.shiftRight_eq_div_pow]; omega
theorem toNat_lowByte (w : Word) : (lowByte w).toNat = w.toNat % 256 := by
  simp [lowByte, BitVec.extractLsb'_toNat]

/-- A word is its two bytes, the high one first (20_memory.md R65). -/
theorem wordOfBytes_high_low (w : Word) : wordOfBytes (highByte w) (lowByte w) = w := by
  apply BitVec.eq_of_toNat_eq
  rw [toNat_wordOfBytes, toNat_highByte, toNat_lowByte]
  omega

/-! ## The fields of each format -/

theorem fieldOp_formatA (op : BitVec 4) (a : Addr12) : fieldOp (formatA op a) = op := by
  apply BitVec.eq_of_toNat_eq; rw [toNat_fieldOp, toNat_formatA]; omega
theorem fieldNNN_formatA (op : BitVec 4) (a : Addr12) : fieldNNN (formatA op a) = a := by
  apply BitVec.eq_of_toNat_eq; rw [toNat_fieldNNN, toNat_formatA]; omega
theorem fieldOp_formatXK (op : BitVec 4) (x : Reg) (k : Byte) : fieldOp (formatXK op x k) = op := by
  apply BitVec.eq_of_toNat_eq; rw [toNat_fieldOp, toNat_formatXK]; omega
theorem fieldX_formatXK (op : BitVec 4) (x : Reg) (k : Byte) : fieldX (formatXK op x k) = x := by
  apply Fin.ext; rw [val_fieldX, toNat_formatXK]; omega
theorem fieldNN_formatXK (op : BitVec 4) (x : Reg) (k : Byte) : fieldNN (formatXK op x k) = k := by
  apply BitVec.eq_of_toNat_eq; rw [toNat_fieldNN, toNat_formatXK]; omega
theorem fieldOp_formatXYN (op : BitVec 4) (x y : Reg) (n : BitVec 4) :
    fieldOp (formatXYN op x y n) = op := by
  apply BitVec.eq_of_toNat_eq; rw [toNat_fieldOp, toNat_formatXYN]; omega
theorem fieldX_formatXYN (op : BitVec 4) (x y : Reg) (n : BitVec 4) :
    fieldX (formatXYN op x y n) = x := by
  apply Fin.ext; rw [val_fieldX, toNat_formatXYN]; omega
theorem fieldY_formatXYN (op : BitVec 4) (x y : Reg) (n : BitVec 4) :
    fieldY (formatXYN op x y n) = y := by
  apply Fin.ext; rw [val_fieldY, toNat_formatXYN]; omega
theorem fieldN_formatXYN (op : BitVec 4) (x y : Reg) (n : BitVec 4) :
    fieldN (formatXYN op x y n) = n.toFin := by
  apply Fin.ext; rw [val_fieldN, toNat_formatXYN]; simp; omega

/-! ## Decoding bytes and words -/

/-- The decoder on bytes is the decoder on their big-endian word. -/
theorem decode_bytes (w : Word) (rest : List Byte) :
    decode (highByte w :: lowByte w :: rest) = (decodeWord w).map fun i => (i, rest) := by
  simp only [decode, wordOfBytes_high_low]
  cases decodeWord w <;> rfl

theorem decodeWord_ok_iff {w : Word} {i : Instr} : decodeWord w = .ok i ↔ decodeWord? w = some i := by
  unfold decodeWord; cases decodeWord? w <;> simp

theorem decodeWord_error_iff {w : Word} {e : Reject} :
    decodeWord w = .error e ↔ decodeWord? w = none ∧ e = .illegal w := by
  unfold decodeWord; cases decodeWord? w <;> simp [eq_comm]

theorem fits_reg (r : Fin 16) : (Operand.reg r).fits = true := decide_eq_true r.isLt
theorem fits_rows (n : Fin 16) : (Operand.rows n).fits = true := decide_eq_true n.isLt
theorem fits_imm8 (k : Byte) : (Operand.imm8 k.toNat).fits = true := decide_eq_true k.isLt
theorem fits_addr12 (a : Addr12) : (Operand.addr12 a.toNat).fits = true := decide_eq_true a.isLt

/-- Every term of `Instr` is well-formed: the operand types carry the bounds. -/
theorem wellFormed_all (i : Instr) : i.wellFormed = true := by
  cases i <;>
    simp only [Instr.wellFormed, Instr.operands, List.all_cons, List.all_nil, fits_reg, fits_rows,
      fits_imm8, fits_addr12, Bool.and_self]

end Sys2Proof
end

