-- ==== Sys2Proof/Laws/Memory.lean ====
section
/-! SUPPORT. The laws of memory: a read after a write, what a write leaves alone, and that every memory
operation keeps the canonical form (20_memory.md R63, R64, R67). -/

namespace Sys2Proof.Machine

/-! ## Writes leave FONT alone -/

@[simp] theorem Memory.write_font (m : Memory) (a : Nat) (b : Byte) : (m.write a b).font = m.font := rfl

@[simp] theorem Memory.unlisted_write (m : Memory) (a c : Nat) (b : Byte) :
    (m.write a b).unlisted c = m.unlisted c := rfl

@[simp] theorem Memory.writeBytes_font (m : Memory) (a : Nat) (bs : List Byte) :
    (m.writeBytes a bs).font = m.font := by
  induction bs generalizing m a with
  | nil => rfl
  | cons b bs ih => simp [Memory.writeBytes, ih]

/-! ## Reading after writing -/

theorem find?_insertCell_self (a : Nat) (b : Byte) (cells : List Host.Cell)
    (h : ∀ c ∈ cells, c.1 ≠ a) :
    (insertCell (a, b) cells).find? (fun c => c.1 == a) = some (a, b) := by
  induction cells with
  | nil => simp [insertCell]
  | cons d ds ih =>
    have hd : d.1 ≠ a := h d (by simp)
    have hds := ih fun c hc => h c (by simp [hc])
    simp only [insertCell]
    split
    · simp
    · simpa [List.find?_cons, hd] using hds

theorem find?_insertCell_other {a c : Nat} (hne : c ≠ a) (b : Byte) (cells : List Host.Cell) :
    (insertCell (a, b) cells).find? (fun d => d.1 == c) = cells.find? (fun d => d.1 == c) := by
  induction cells with
  | nil => simp [insertCell, Ne.symm hne]
  | cons d ds ih =>
    simp only [insertCell]
    split
    · simp [List.find?_cons, Ne.symm hne]
    · simp only [List.find?_cons, ih]

theorem find?_filter_self (a : Nat) (cells : List Host.Cell) :
    (cells.filter (fun c => c.1 != a)).find? (fun c => c.1 == a) = none := by
  simp [List.find?_eq_none]

theorem find?_filter_other {a c : Nat} (hne : c ≠ a) (cells : List Host.Cell) :
    (cells.filter (fun d => d.1 != a)).find? (fun d => d.1 == c) =
      cells.find? (fun d => d.1 == c) := by
  induction cells with
  | nil => rfl
  | cons d ds ih =>
    by_cases hd : d.1 = a
    · have : d.1 ≠ c := fun h => hne (h.symm.trans hd)
      simp [hd, ih, Ne.symm hne]
    · simp [hd, List.find?_cons, ih]

/-- A read after a write: the written byte at its address, every other byte as before. -/
theorem Memory.read_write (m : Memory) (a c : Nat) (b : Byte) :
    (m.write a b).read c = if c = a then b else m.read c := by
  by_cases hc : c = a
  · subst hc
    by_cases hb : b = m.unlisted c
    · simp only [Memory.read, Memory.write, hb, if_true, find?_filter_self]; rfl
    · have : ∀ d ∈ m.cells.filter (fun d => d.1 != c), d.1 ≠ c := by simp
      simp only [Memory.read, Memory.write, hb, if_false, if_true, find?_insertCell_self c b _ this]
  · by_cases hb : b = m.unlisted a
    · simp only [Memory.read, Memory.write, hb, hc, if_true, if_false, find?_filter_other hc]; rfl
    · simp only [Memory.read, Memory.write, hb, hc, if_false, find?_insertCell_other hc,
        find?_filter_other hc]; rfl

@[simp] theorem Memory.read_write_self (m : Memory) (a : Nat) (b : Byte) :
    (m.write a b).read a = b := by simp [Memory.read_write]

/-- A write of several bytes leaves every byte outside them as it was. -/
theorem Memory.read_writeBytes_outside (m : Memory) (a c : Nat) (bs : List Byte)
    (h : c < a ∨ a + bs.length ≤ c) : (m.writeBytes a bs).read c = m.read c := by
  induction bs generalizing m a with
  | nil => rfl
  | cons b bs ih =>
    simp only [List.length_cons] at h
    rw [Memory.writeBytes, ih _ _ (by omega), Memory.read_write, if_neg (by omega)]

/-- A write of several bytes puts the `k`-th at `a + k`. -/
theorem Memory.read_writeBytes_inside (m : Memory) (a k : Nat) (bs : List Byte) (h : k < bs.length) :
    (m.writeBytes a bs).read (a + k) = bs[k] := by
  induction bs generalizing m a k with
  | nil => simp at h
  | cons b bs ih =>
    cases k with
    | zero => rw [Memory.writeBytes, Memory.read_writeBytes_outside _ _ _ _ (by omega)]; simp
    | succ k =>
      have := ih (m.write a b) (a + 1) k (by simpa using h)
      rw [Memory.writeBytes, show a + (k + 1) = a + 1 + k by omega, this, List.getElem_cons_succ]

/-- All that a write of several bytes does, at every address. -/
theorem Memory.read_writeBytes (m : Memory) (lo a : Nat) (bs : List Byte) :
    (m.writeBytes lo bs).read a = m.overlaid lo bs a := by
  unfold Memory.overlaid
  split
  · next h =>
    obtain ⟨k, rfl⟩ := Nat.exists_eq_add_of_le h
    rw [Nat.add_sub_cancel_left]
    by_cases hk : k < bs.length
    · rw [Memory.read_writeBytes_inside _ _ _ _ hk, List.getElem?_eq_getElem hk, Option.getD_some]
    · rw [Memory.read_writeBytes_outside _ _ _ _ (by omega), List.getElem?_eq_none (by omega), Option.getD_none]
  · exact Memory.read_writeBytes_outside _ _ _ _ (by omega)

@[simp] theorem Memory.length_readBytes (m : Memory) (a n : Nat) : (m.readBytes a n).length = n := by
  simp [Memory.readBytes]

/-- The `k`-th byte read is the one at `a + k`. -/
theorem Memory.getElem_readBytes (m : Memory) (a n k : Nat) (h : k < (m.readBytes a n).length) :
    (m.readBytes a n)[k] = m.read (a + k) := by
  simp [Memory.readBytes]

/-! ## The canonical form -/

/-- What the canonical form says. -/
theorem Memory.wf_iff (m : Memory) :
    m.wf = true ↔ m.cells.Pairwise (fun c d => c.1 < d.1) ∧
      ∀ c ∈ m.cells, c.1 < 0x1000 ∧ c.2 ≠ m.unlisted c.1 := by
  simp only [Memory.wf, Bool.and_eq_true, decide_eq_true_eq, List.all_eq_true, bne_iff_ne]

theorem mem_insertCell {c d : Host.Cell} {cells : List Host.Cell} :
    d ∈ insertCell c cells ↔ d = c ∨ d ∈ cells := by
  induction cells with
  | nil => simp [insertCell]
  | cons e es ih =>
    simp only [insertCell]
    split
    · simp
    · simp only [List.mem_cons, ih]
      tauto

theorem pairwise_insertCell {c : Host.Cell} {cells : List Host.Cell}
    (hs : cells.Pairwise fun d e => d.1 < e.1) (hc : ∀ d ∈ cells, d.1 ≠ c.1) :
    (insertCell c cells).Pairwise fun d e => d.1 < e.1 := by
  induction cells with
  | nil => simp [insertCell]
  | cons d ds ih =>
    have hd := List.pairwise_cons.mp hs
    have hne : d.1 ≠ c.1 := hc d (by simp)
    simp only [insertCell]
    split
    · next hlt =>
      refine List.pairwise_cons.mpr ⟨?_, hs⟩
      intro e he
      rcases List.mem_cons.mp he with rfl | he
      · exact hlt
      · exact hlt.trans (hd.1 e he)
    · refine List.pairwise_cons.mpr ⟨?_, ih hd.2 fun e he => hc e (by simp [he])⟩
      intro e he
      rcases mem_insertCell.mp he with rfl | he
      · omega
      · exact hd.1 e he

/-- A write inside the memory keeps the canonical form. -/
theorem Memory.wf_write {m : Memory} (h : m.wf = true) {a : Nat} (ha : a < 0x1000) (b : Byte) :
    (m.write a b).wf = true := by
  rw [Memory.wf_iff] at h ⊢
  obtain ⟨hs, hc⟩ := h
  have hf : (m.cells.filter fun c => c.1 != a).Pairwise fun c d => c.1 < d.1 := hs.filter _
  simp only [Memory.unlisted_write]
  by_cases hb : b = m.unlisted a
  · simp only [Memory.write, hb, if_true]
    exact ⟨hf, fun c hcm => hc c (List.mem_filter.mp hcm).1⟩
  · simp only [Memory.write, hb, if_false]
    refine ⟨pairwise_insertCell hf (by simp), fun c hcm => ?_⟩
    rcases mem_insertCell.mp hcm with rfl | hcm
    · exact ⟨ha, hb⟩
    · exact hc c (List.mem_filter.mp hcm).1

/-- A write of several bytes inside the memory keeps the canonical form. -/
theorem Memory.wf_writeBytes {m : Memory} (h : m.wf = true) {a : Nat} {bs : List Byte}
    (ha : a + bs.length ≤ 0x1000) : (m.writeBytes a bs).wf = true := by
  induction bs generalizing m a with
  | nil => exact h
  | cons b bs ih =>
    simp only [List.length_cons] at ha
    exact ih (Memory.wf_write h (by omega) b) (by omega)

/-- Reset memory, with nothing listed, is in canonical form, whatever FONT is. -/
theorem Memory.wf_reset (font : Vector Byte 80) : (Memory.mk font []).wf = true := by
  rw [Memory.wf_iff]
  exact ⟨List.Pairwise.nil, by simp⟩

end Sys2Proof.Machine
end

