-- ==== Sys2Proof/Laws/State.lean ====
section
/-! SUPPORT. One lemma per field per update of the state, each true by `rfl`, so that no proof unfolds a
record update; and the small lemmas of register reads, push, pop and skip. -/

namespace Sys2Proof.Machine

/-! ### writeV -/

@[simp] theorem State.writeV_v (s : State) (x : Reg) (b : Byte) :
    (s.writeV x b).v = s.v.set x b := rfl
@[simp] theorem State.writeV_pc (s : State) (x : Reg) (b : Byte) :
    (s.writeV x b).pc = s.pc := rfl
@[simp] theorem State.writeV_i (s : State) (x : Reg) (b : Byte) :
    (s.writeV x b).i = s.i := rfl
@[simp] theorem State.writeV_stack (s : State) (x : Reg) (b : Byte) :
    (s.writeV x b).stack = s.stack := rfl
@[simp] theorem State.writeV_sp (s : State) (x : Reg) (b : Byte) :
    (s.writeV x b).sp = s.sp := rfl
@[simp] theorem State.writeV_mem (s : State) (x : Reg) (b : Byte) :
    (s.writeV x b).mem = s.mem := rfl
@[simp] theorem State.writeV_display (s : State) (x : Reg) (b : Byte) :
    (s.writeV x b).display = s.display := rfl
@[simp] theorem State.writeV_keys (s : State) (x : Reg) (b : Byte) :
    (s.writeV x b).keys = s.keys := rfl
@[simp] theorem State.writeV_dt (s : State) (x : Reg) (b : Byte) :
    (s.writeV x b).dt = s.dt := rfl
@[simp] theorem State.writeV_st (s : State) (x : Reg) (b : Byte) :
    (s.writeV x b).st = s.st := rfl
@[simp] theorem State.writeV_status (s : State) (x : Reg) (b : Byte) :
    (s.writeV x b).status = s.status := rfl
@[simp] theorem State.writeV_fault (s : State) (x : Reg) (b : Byte) :
    (s.writeV x b).fault = s.fault := rfl
@[simp] theorem State.writeV_draws (s : State) (x : Reg) (b : Byte) :
    (s.writeV x b).draws = s.draws := rfl
@[simp] theorem State.writeV_pending (s : State) (x : Reg) (b : Byte) :
    (s.writeV x b).pending = s.pending := rfl

/-! ### setPc -/

@[simp] theorem State.setPc_v (s : State) (a : Word) :
    (s.setPc a).v = s.v := rfl
@[simp] theorem State.setPc_pc (s : State) (a : Word) :
    (s.setPc a).pc = a := rfl
@[simp] theorem State.setPc_i (s : State) (a : Word) :
    (s.setPc a).i = s.i := rfl
@[simp] theorem State.setPc_stack (s : State) (a : Word) :
    (s.setPc a).stack = s.stack := rfl
@[simp] theorem State.setPc_sp (s : State) (a : Word) :
    (s.setPc a).sp = s.sp := rfl
@[simp] theorem State.setPc_mem (s : State) (a : Word) :
    (s.setPc a).mem = s.mem := rfl
@[simp] theorem State.setPc_display (s : State) (a : Word) :
    (s.setPc a).display = s.display := rfl
@[simp] theorem State.setPc_keys (s : State) (a : Word) :
    (s.setPc a).keys = s.keys := rfl
@[simp] theorem State.setPc_dt (s : State) (a : Word) :
    (s.setPc a).dt = s.dt := rfl
@[simp] theorem State.setPc_st (s : State) (a : Word) :
    (s.setPc a).st = s.st := rfl
@[simp] theorem State.setPc_status (s : State) (a : Word) :
    (s.setPc a).status = s.status := rfl
@[simp] theorem State.setPc_fault (s : State) (a : Word) :
    (s.setPc a).fault = s.fault := rfl
@[simp] theorem State.setPc_draws (s : State) (a : Word) :
    (s.setPc a).draws = s.draws := rfl
@[simp] theorem State.setPc_pending (s : State) (a : Word) :
    (s.setPc a).pending = s.pending := rfl
@[simp] theorem State.setPc_readV (s : State) (a : Word) (r : Reg) :
    (s.setPc a).readV r = s.readV r := rfl

/-! ### advance -/

@[simp] theorem State.advance_v (s : State) :
    (s.advance).v = s.v := rfl
@[simp] theorem State.advance_pc (s : State) :
    (s.advance).pc = s.pc + 2 := rfl
@[simp] theorem State.advance_i (s : State) :
    (s.advance).i = s.i := rfl
@[simp] theorem State.advance_stack (s : State) :
    (s.advance).stack = s.stack := rfl
@[simp] theorem State.advance_sp (s : State) :
    (s.advance).sp = s.sp := rfl
@[simp] theorem State.advance_mem (s : State) :
    (s.advance).mem = s.mem := rfl
@[simp] theorem State.advance_display (s : State) :
    (s.advance).display = s.display := rfl
@[simp] theorem State.advance_keys (s : State) :
    (s.advance).keys = s.keys := rfl
@[simp] theorem State.advance_dt (s : State) :
    (s.advance).dt = s.dt := rfl
@[simp] theorem State.advance_st (s : State) :
    (s.advance).st = s.st := rfl
@[simp] theorem State.advance_status (s : State) :
    (s.advance).status = s.status := rfl
@[simp] theorem State.advance_fault (s : State) :
    (s.advance).fault = s.fault := rfl
@[simp] theorem State.advance_draws (s : State) :
    (s.advance).draws = s.draws := rfl
@[simp] theorem State.advance_pending (s : State) :
    (s.advance).pending = s.pending := rfl
@[simp] theorem State.advance_readV (s : State) (r : Reg) :
    (s.advance).readV r = s.readV r := rfl

/-! ### setI -/

@[simp] theorem State.setI_v (s : State) (a : Word) :
    (s.setI a).v = s.v := rfl
@[simp] theorem State.setI_pc (s : State) (a : Word) :
    (s.setI a).pc = s.pc := rfl
@[simp] theorem State.setI_i (s : State) (a : Word) :
    (s.setI a).i = a := rfl
@[simp] theorem State.setI_stack (s : State) (a : Word) :
    (s.setI a).stack = s.stack := rfl
@[simp] theorem State.setI_sp (s : State) (a : Word) :
    (s.setI a).sp = s.sp := rfl
@[simp] theorem State.setI_mem (s : State) (a : Word) :
    (s.setI a).mem = s.mem := rfl
@[simp] theorem State.setI_display (s : State) (a : Word) :
    (s.setI a).display = s.display := rfl
@[simp] theorem State.setI_keys (s : State) (a : Word) :
    (s.setI a).keys = s.keys := rfl
@[simp] theorem State.setI_dt (s : State) (a : Word) :
    (s.setI a).dt = s.dt := rfl
@[simp] theorem State.setI_st (s : State) (a : Word) :
    (s.setI a).st = s.st := rfl
@[simp] theorem State.setI_status (s : State) (a : Word) :
    (s.setI a).status = s.status := rfl
@[simp] theorem State.setI_fault (s : State) (a : Word) :
    (s.setI a).fault = s.fault := rfl
@[simp] theorem State.setI_draws (s : State) (a : Word) :
    (s.setI a).draws = s.draws := rfl
@[simp] theorem State.setI_pending (s : State) (a : Word) :
    (s.setI a).pending = s.pending := rfl
@[simp] theorem State.setI_readV (s : State) (a : Word) (r : Reg) :
    (s.setI a).readV r = s.readV r := rfl

/-! ### setDT -/

@[simp] theorem State.setDT_v (s : State) (b : Byte) :
    (s.setDT b).v = s.v := rfl
@[simp] theorem State.setDT_pc (s : State) (b : Byte) :
    (s.setDT b).pc = s.pc := rfl
@[simp] theorem State.setDT_i (s : State) (b : Byte) :
    (s.setDT b).i = s.i := rfl
@[simp] theorem State.setDT_stack (s : State) (b : Byte) :
    (s.setDT b).stack = s.stack := rfl
@[simp] theorem State.setDT_sp (s : State) (b : Byte) :
    (s.setDT b).sp = s.sp := rfl
@[simp] theorem State.setDT_mem (s : State) (b : Byte) :
    (s.setDT b).mem = s.mem := rfl
@[simp] theorem State.setDT_display (s : State) (b : Byte) :
    (s.setDT b).display = s.display := rfl
@[simp] theorem State.setDT_keys (s : State) (b : Byte) :
    (s.setDT b).keys = s.keys := rfl
@[simp] theorem State.setDT_dt (s : State) (b : Byte) :
    (s.setDT b).dt = b := rfl
@[simp] theorem State.setDT_st (s : State) (b : Byte) :
    (s.setDT b).st = s.st := rfl
@[simp] theorem State.setDT_status (s : State) (b : Byte) :
    (s.setDT b).status = s.status := rfl
@[simp] theorem State.setDT_fault (s : State) (b : Byte) :
    (s.setDT b).fault = s.fault := rfl
@[simp] theorem State.setDT_draws (s : State) (b : Byte) :
    (s.setDT b).draws = s.draws := rfl
@[simp] theorem State.setDT_pending (s : State) (b : Byte) :
    (s.setDT b).pending = s.pending := rfl
@[simp] theorem State.setDT_readV (s : State) (b : Byte) (r : Reg) :
    (s.setDT b).readV r = s.readV r := rfl

/-! ### setST -/

@[simp] theorem State.setST_v (s : State) (b : Byte) :
    (s.setST b).v = s.v := rfl
@[simp] theorem State.setST_pc (s : State) (b : Byte) :
    (s.setST b).pc = s.pc := rfl
@[simp] theorem State.setST_i (s : State) (b : Byte) :
    (s.setST b).i = s.i := rfl
@[simp] theorem State.setST_stack (s : State) (b : Byte) :
    (s.setST b).stack = s.stack := rfl
@[simp] theorem State.setST_sp (s : State) (b : Byte) :
    (s.setST b).sp = s.sp := rfl
@[simp] theorem State.setST_mem (s : State) (b : Byte) :
    (s.setST b).mem = s.mem := rfl
@[simp] theorem State.setST_display (s : State) (b : Byte) :
    (s.setST b).display = s.display := rfl
@[simp] theorem State.setST_keys (s : State) (b : Byte) :
    (s.setST b).keys = s.keys := rfl
@[simp] theorem State.setST_dt (s : State) (b : Byte) :
    (s.setST b).dt = s.dt := rfl
@[simp] theorem State.setST_st (s : State) (b : Byte) :
    (s.setST b).st = b := rfl
@[simp] theorem State.setST_status (s : State) (b : Byte) :
    (s.setST b).status = s.status := rfl
@[simp] theorem State.setST_fault (s : State) (b : Byte) :
    (s.setST b).fault = s.fault := rfl
@[simp] theorem State.setST_draws (s : State) (b : Byte) :
    (s.setST b).draws = s.draws := rfl
@[simp] theorem State.setST_pending (s : State) (b : Byte) :
    (s.setST b).pending = s.pending := rfl
@[simp] theorem State.setST_readV (s : State) (b : Byte) (r : Reg) :
    (s.setST b).readV r = s.readV r := rfl

/-! ### loadRegs -/

@[simp] theorem State.loadRegs_pc (s : State) (a : Nat) (x : Reg) :
    (s.loadRegs a x).pc = s.pc := rfl
@[simp] theorem State.loadRegs_i (s : State) (a : Nat) (x : Reg) :
    (s.loadRegs a x).i = s.i := rfl
@[simp] theorem State.loadRegs_stack (s : State) (a : Nat) (x : Reg) :
    (s.loadRegs a x).stack = s.stack := rfl
@[simp] theorem State.loadRegs_sp (s : State) (a : Nat) (x : Reg) :
    (s.loadRegs a x).sp = s.sp := rfl
@[simp] theorem State.loadRegs_mem (s : State) (a : Nat) (x : Reg) :
    (s.loadRegs a x).mem = s.mem := rfl
@[simp] theorem State.loadRegs_display (s : State) (a : Nat) (x : Reg) :
    (s.loadRegs a x).display = s.display := rfl
@[simp] theorem State.loadRegs_keys (s : State) (a : Nat) (x : Reg) :
    (s.loadRegs a x).keys = s.keys := rfl
@[simp] theorem State.loadRegs_dt (s : State) (a : Nat) (x : Reg) :
    (s.loadRegs a x).dt = s.dt := rfl
@[simp] theorem State.loadRegs_st (s : State) (a : Nat) (x : Reg) :
    (s.loadRegs a x).st = s.st := rfl
@[simp] theorem State.loadRegs_status (s : State) (a : Nat) (x : Reg) :
    (s.loadRegs a x).status = s.status := rfl
@[simp] theorem State.loadRegs_fault (s : State) (a : Nat) (x : Reg) :
    (s.loadRegs a x).fault = s.fault := rfl
@[simp] theorem State.loadRegs_draws (s : State) (a : Nat) (x : Reg) :
    (s.loadRegs a x).draws = s.draws := rfl
@[simp] theorem State.loadRegs_pending (s : State) (a : Nat) (x : Reg) :
    (s.loadRegs a x).pending = s.pending := rfl

/-! ### storeBytes -/

@[simp] theorem State.storeBytes_v (s : State) (a : Nat) (bs : List Byte) :
    (s.storeBytes a bs).v = s.v := rfl
@[simp] theorem State.storeBytes_pc (s : State) (a : Nat) (bs : List Byte) :
    (s.storeBytes a bs).pc = s.pc := rfl
@[simp] theorem State.storeBytes_i (s : State) (a : Nat) (bs : List Byte) :
    (s.storeBytes a bs).i = s.i := rfl
@[simp] theorem State.storeBytes_stack (s : State) (a : Nat) (bs : List Byte) :
    (s.storeBytes a bs).stack = s.stack := rfl
@[simp] theorem State.storeBytes_sp (s : State) (a : Nat) (bs : List Byte) :
    (s.storeBytes a bs).sp = s.sp := rfl
@[simp] theorem State.storeBytes_mem (s : State) (a : Nat) (bs : List Byte) :
    (s.storeBytes a bs).mem = s.mem.writeBytes a bs := rfl
@[simp] theorem State.storeBytes_display (s : State) (a : Nat) (bs : List Byte) :
    (s.storeBytes a bs).display = s.display := rfl
@[simp] theorem State.storeBytes_keys (s : State) (a : Nat) (bs : List Byte) :
    (s.storeBytes a bs).keys = s.keys := rfl
@[simp] theorem State.storeBytes_dt (s : State) (a : Nat) (bs : List Byte) :
    (s.storeBytes a bs).dt = s.dt := rfl
@[simp] theorem State.storeBytes_st (s : State) (a : Nat) (bs : List Byte) :
    (s.storeBytes a bs).st = s.st := rfl
@[simp] theorem State.storeBytes_status (s : State) (a : Nat) (bs : List Byte) :
    (s.storeBytes a bs).status = s.status := rfl
@[simp] theorem State.storeBytes_fault (s : State) (a : Nat) (bs : List Byte) :
    (s.storeBytes a bs).fault = s.fault := rfl
@[simp] theorem State.storeBytes_draws (s : State) (a : Nat) (bs : List Byte) :
    (s.storeBytes a bs).draws = s.draws := rfl
@[simp] theorem State.storeBytes_pending (s : State) (a : Nat) (bs : List Byte) :
    (s.storeBytes a bs).pending = s.pending := rfl
@[simp] theorem State.storeBytes_readV (s : State) (a : Nat) (bs : List Byte) (r : Reg) :
    (s.storeBytes a bs).readV r = s.readV r := rfl

/-! ### consumeDraw -/

@[simp] theorem State.consumeDraw_v (s : State) :
    (s.consumeDraw).v = s.v := rfl
@[simp] theorem State.consumeDraw_pc (s : State) :
    (s.consumeDraw).pc = s.pc := rfl
@[simp] theorem State.consumeDraw_i (s : State) :
    (s.consumeDraw).i = s.i := rfl
@[simp] theorem State.consumeDraw_stack (s : State) :
    (s.consumeDraw).stack = s.stack := rfl
@[simp] theorem State.consumeDraw_sp (s : State) :
    (s.consumeDraw).sp = s.sp := rfl
@[simp] theorem State.consumeDraw_mem (s : State) :
    (s.consumeDraw).mem = s.mem := rfl
@[simp] theorem State.consumeDraw_display (s : State) :
    (s.consumeDraw).display = s.display := rfl
@[simp] theorem State.consumeDraw_keys (s : State) :
    (s.consumeDraw).keys = s.keys := rfl
@[simp] theorem State.consumeDraw_dt (s : State) :
    (s.consumeDraw).dt = s.dt := rfl
@[simp] theorem State.consumeDraw_st (s : State) :
    (s.consumeDraw).st = s.st := rfl
@[simp] theorem State.consumeDraw_status (s : State) :
    (s.consumeDraw).status = s.status := rfl
@[simp] theorem State.consumeDraw_fault (s : State) :
    (s.consumeDraw).fault = s.fault := rfl
@[simp] theorem State.consumeDraw_draws (s : State) :
    (s.consumeDraw).draws = s.draws + 1 := rfl
@[simp] theorem State.consumeDraw_pending (s : State) :
    (s.consumeDraw).pending = s.pending := rfl
@[simp] theorem State.consumeDraw_readV (s : State) (r : Reg) :
    (s.consumeDraw).readV r = s.readV r := rfl

/-! ### setDisplay -/

@[simp] theorem State.setDisplay_v (s : State) (d : Display) :
    (s.setDisplay d).v = s.v := rfl
@[simp] theorem State.setDisplay_pc (s : State) (d : Display) :
    (s.setDisplay d).pc = s.pc := rfl
@[simp] theorem State.setDisplay_i (s : State) (d : Display) :
    (s.setDisplay d).i = s.i := rfl
@[simp] theorem State.setDisplay_stack (s : State) (d : Display) :
    (s.setDisplay d).stack = s.stack := rfl
@[simp] theorem State.setDisplay_sp (s : State) (d : Display) :
    (s.setDisplay d).sp = s.sp := rfl
@[simp] theorem State.setDisplay_mem (s : State) (d : Display) :
    (s.setDisplay d).mem = s.mem := rfl
@[simp] theorem State.setDisplay_display (s : State) (d : Display) :
    (s.setDisplay d).display = d := rfl
@[simp] theorem State.setDisplay_keys (s : State) (d : Display) :
    (s.setDisplay d).keys = s.keys := rfl
@[simp] theorem State.setDisplay_dt (s : State) (d : Display) :
    (s.setDisplay d).dt = s.dt := rfl
@[simp] theorem State.setDisplay_st (s : State) (d : Display) :
    (s.setDisplay d).st = s.st := rfl
@[simp] theorem State.setDisplay_status (s : State) (d : Display) :
    (s.setDisplay d).status = s.status := rfl
@[simp] theorem State.setDisplay_fault (s : State) (d : Display) :
    (s.setDisplay d).fault = s.fault := rfl
@[simp] theorem State.setDisplay_draws (s : State) (d : Display) :
    (s.setDisplay d).draws = s.draws := rfl
@[simp] theorem State.setDisplay_pending (s : State) (d : Display) :
    (s.setDisplay d).pending = s.pending := rfl
@[simp] theorem State.setDisplay_readV (s : State) (d : Display) (r : Reg) :
    (s.setDisplay d).readV r = s.readV r := rfl

/-! ### writeResultThenFlag -/

@[simp] theorem State.writeResultThenFlag_v (s : State) (x : Reg) (r f : Byte) :
    (s.writeResultThenFlag x r f).v = (s.v.set x r).set VF f := rfl
@[simp] theorem State.writeResultThenFlag_pc (s : State) (x : Reg) (r f : Byte) :
    (s.writeResultThenFlag x r f).pc = s.pc := rfl
@[simp] theorem State.writeResultThenFlag_i (s : State) (x : Reg) (r f : Byte) :
    (s.writeResultThenFlag x r f).i = s.i := rfl
@[simp] theorem State.writeResultThenFlag_stack (s : State) (x : Reg) (r f : Byte) :
    (s.writeResultThenFlag x r f).stack = s.stack := rfl
@[simp] theorem State.writeResultThenFlag_sp (s : State) (x : Reg) (r f : Byte) :
    (s.writeResultThenFlag x r f).sp = s.sp := rfl
@[simp] theorem State.writeResultThenFlag_mem (s : State) (x : Reg) (r f : Byte) :
    (s.writeResultThenFlag x r f).mem = s.mem := rfl
@[simp] theorem State.writeResultThenFlag_display (s : State) (x : Reg) (r f : Byte) :
    (s.writeResultThenFlag x r f).display = s.display := rfl
@[simp] theorem State.writeResultThenFlag_keys (s : State) (x : Reg) (r f : Byte) :
    (s.writeResultThenFlag x r f).keys = s.keys := rfl
@[simp] theorem State.writeResultThenFlag_dt (s : State) (x : Reg) (r f : Byte) :
    (s.writeResultThenFlag x r f).dt = s.dt := rfl
@[simp] theorem State.writeResultThenFlag_st (s : State) (x : Reg) (r f : Byte) :
    (s.writeResultThenFlag x r f).st = s.st := rfl
@[simp] theorem State.writeResultThenFlag_status (s : State) (x : Reg) (r f : Byte) :
    (s.writeResultThenFlag x r f).status = s.status := rfl
@[simp] theorem State.writeResultThenFlag_fault (s : State) (x : Reg) (r f : Byte) :
    (s.writeResultThenFlag x r f).fault = s.fault := rfl
@[simp] theorem State.writeResultThenFlag_draws (s : State) (x : Reg) (r f : Byte) :
    (s.writeResultThenFlag x r f).draws = s.draws := rfl
@[simp] theorem State.writeResultThenFlag_pending (s : State) (x : Reg) (r f : Byte) :
    (s.writeResultThenFlag x r f).pending = s.pending := rfl

/-! ### drawSprite -/

@[simp] theorem State.drawSprite_pc (s : State) (x y : Reg) (n : Fin 16) :
    (s.drawSprite x y n).pc = s.pc := rfl
@[simp] theorem State.drawSprite_i (s : State) (x y : Reg) (n : Fin 16) :
    (s.drawSprite x y n).i = s.i := rfl
@[simp] theorem State.drawSprite_stack (s : State) (x y : Reg) (n : Fin 16) :
    (s.drawSprite x y n).stack = s.stack := rfl
@[simp] theorem State.drawSprite_sp (s : State) (x y : Reg) (n : Fin 16) :
    (s.drawSprite x y n).sp = s.sp := rfl
@[simp] theorem State.drawSprite_mem (s : State) (x y : Reg) (n : Fin 16) :
    (s.drawSprite x y n).mem = s.mem := rfl
@[simp] theorem State.drawSprite_keys (s : State) (x y : Reg) (n : Fin 16) :
    (s.drawSprite x y n).keys = s.keys := rfl
@[simp] theorem State.drawSprite_dt (s : State) (x y : Reg) (n : Fin 16) :
    (s.drawSprite x y n).dt = s.dt := rfl
@[simp] theorem State.drawSprite_st (s : State) (x y : Reg) (n : Fin 16) :
    (s.drawSprite x y n).st = s.st := rfl
@[simp] theorem State.drawSprite_status (s : State) (x y : Reg) (n : Fin 16) :
    (s.drawSprite x y n).status = s.status := rfl
@[simp] theorem State.drawSprite_fault (s : State) (x y : Reg) (n : Fin 16) :
    (s.drawSprite x y n).fault = s.fault := rfl
@[simp] theorem State.drawSprite_draws (s : State) (x y : Reg) (n : Fin 16) :
    (s.drawSprite x y n).draws = s.draws := rfl
@[simp] theorem State.drawSprite_pending (s : State) (x y : Reg) (n : Fin 16) :
    (s.drawSprite x y n).pending = s.pending := rfl

/-! ### raise -/

@[simp] theorem State.raise_v (s : State) (c : Cause) (info : Nat) (w : Option Word) :
    (s.raise c info w).v = s.v := rfl
@[simp] theorem State.raise_pc (s : State) (c : Cause) (info : Nat) (w : Option Word) :
    (s.raise c info w).pc = s.pc := rfl
@[simp] theorem State.raise_i (s : State) (c : Cause) (info : Nat) (w : Option Word) :
    (s.raise c info w).i = s.i := rfl
@[simp] theorem State.raise_stack (s : State) (c : Cause) (info : Nat) (w : Option Word) :
    (s.raise c info w).stack = s.stack := rfl
@[simp] theorem State.raise_sp (s : State) (c : Cause) (info : Nat) (w : Option Word) :
    (s.raise c info w).sp = s.sp := rfl
@[simp] theorem State.raise_mem (s : State) (c : Cause) (info : Nat) (w : Option Word) :
    (s.raise c info w).mem = s.mem := rfl
@[simp] theorem State.raise_display (s : State) (c : Cause) (info : Nat) (w : Option Word) :
    (s.raise c info w).display = s.display := rfl
@[simp] theorem State.raise_keys (s : State) (c : Cause) (info : Nat) (w : Option Word) :
    (s.raise c info w).keys = s.keys := rfl
@[simp] theorem State.raise_dt (s : State) (c : Cause) (info : Nat) (w : Option Word) :
    (s.raise c info w).dt = s.dt := rfl
@[simp] theorem State.raise_st (s : State) (c : Cause) (info : Nat) (w : Option Word) :
    (s.raise c info w).st = s.st := rfl
@[simp] theorem State.raise_status (s : State) (c : Cause) (info : Nat) (w : Option Word) :
    (s.raise c info w).status = .halted := rfl
@[simp] theorem State.raise_fault (s : State) (c : Cause) (info : Nat) (w : Option Word) :
    (s.raise c info w).fault = ⟨c, s.pc, w, BitVec.ofNat 17 info⟩ := rfl
@[simp] theorem State.raise_draws (s : State) (c : Cause) (info : Nat) (w : Option Word) :
    (s.raise c info w).draws = s.draws := rfl
@[simp] theorem State.raise_pending (s : State) (c : Cause) (info : Nat) (w : Option Word) :
    (s.raise c info w).pending = s.pending := rfl
@[simp] theorem State.raise_readV (s : State) (c : Cause) (info : Nat) (w : Option Word) (r : Reg) :
    (s.raise c info w).readV r = s.readV r := rfl

/-! ### setKey -/

@[simp] theorem State.setKey_v (s : State) (k : Key) (p : Bool) :
    (s.setKey k p).v = s.v := rfl
@[simp] theorem State.setKey_pc (s : State) (k : Key) (p : Bool) :
    (s.setKey k p).pc = s.pc := rfl
@[simp] theorem State.setKey_i (s : State) (k : Key) (p : Bool) :
    (s.setKey k p).i = s.i := rfl
@[simp] theorem State.setKey_stack (s : State) (k : Key) (p : Bool) :
    (s.setKey k p).stack = s.stack := rfl
@[simp] theorem State.setKey_sp (s : State) (k : Key) (p : Bool) :
    (s.setKey k p).sp = s.sp := rfl
@[simp] theorem State.setKey_mem (s : State) (k : Key) (p : Bool) :
    (s.setKey k p).mem = s.mem := rfl
@[simp] theorem State.setKey_display (s : State) (k : Key) (p : Bool) :
    (s.setKey k p).display = s.display := rfl
@[simp] theorem State.setKey_keys (s : State) (k : Key) (p : Bool) :
    (s.setKey k p).keys = s.keys.set k p := rfl
@[simp] theorem State.setKey_dt (s : State) (k : Key) (p : Bool) :
    (s.setKey k p).dt = s.dt := rfl
@[simp] theorem State.setKey_st (s : State) (k : Key) (p : Bool) :
    (s.setKey k p).st = s.st := rfl
@[simp] theorem State.setKey_status (s : State) (k : Key) (p : Bool) :
    (s.setKey k p).status = s.status := rfl
@[simp] theorem State.setKey_fault (s : State) (k : Key) (p : Bool) :
    (s.setKey k p).fault = s.fault := rfl
@[simp] theorem State.setKey_draws (s : State) (k : Key) (p : Bool) :
    (s.setKey k p).draws = s.draws := rfl
@[simp] theorem State.setKey_pending (s : State) (k : Key) (p : Bool) :
    (s.setKey k p).pending = s.pending := rfl
@[simp] theorem State.setKey_readV (s : State) (k : Key) (p : Bool) (r : Reg) :
    (s.setKey k p).readV r = s.readV r := rfl

/-! ### tickTimers -/

@[simp] theorem State.tickTimers_v (s : State) :
    (s.tickTimers).v = s.v := rfl
@[simp] theorem State.tickTimers_pc (s : State) :
    (s.tickTimers).pc = s.pc := rfl
@[simp] theorem State.tickTimers_i (s : State) :
    (s.tickTimers).i = s.i := rfl
@[simp] theorem State.tickTimers_stack (s : State) :
    (s.tickTimers).stack = s.stack := rfl
@[simp] theorem State.tickTimers_sp (s : State) :
    (s.tickTimers).sp = s.sp := rfl
@[simp] theorem State.tickTimers_mem (s : State) :
    (s.tickTimers).mem = s.mem := rfl
@[simp] theorem State.tickTimers_display (s : State) :
    (s.tickTimers).display = s.display := rfl
@[simp] theorem State.tickTimers_keys (s : State) :
    (s.tickTimers).keys = s.keys := rfl
@[simp] theorem State.tickTimers_dt (s : State) :
    (s.tickTimers).dt = countDown s.dt := rfl
@[simp] theorem State.tickTimers_st (s : State) :
    (s.tickTimers).st = countDown s.st := rfl
@[simp] theorem State.tickTimers_status (s : State) :
    (s.tickTimers).status = s.status := rfl
@[simp] theorem State.tickTimers_fault (s : State) :
    (s.tickTimers).fault = s.fault := rfl
@[simp] theorem State.tickTimers_draws (s : State) :
    (s.tickTimers).draws = s.draws := rfl
@[simp] theorem State.tickTimers_pending (s : State) :
    (s.tickTimers).pending = s.pending := rfl
@[simp] theorem State.tickTimers_readV (s : State) (r : Reg) :
    (s.tickTimers).readV r = s.readV r := rfl

/-! ### skipIf -/

@[simp] theorem State.skipIf_pc (s : State) (c : Bool) :
    (s.skipIf c).pc = if c then s.pc + 2 else s.pc := by cases c <;> rfl
@[simp] theorem State.skipIf_v (s : State) (c : Bool) :
    (s.skipIf c).v = s.v := by cases c <;> rfl
@[simp] theorem State.skipIf_i (s : State) (c : Bool) :
    (s.skipIf c).i = s.i := by cases c <;> rfl
@[simp] theorem State.skipIf_stack (s : State) (c : Bool) :
    (s.skipIf c).stack = s.stack := by cases c <;> rfl
@[simp] theorem State.skipIf_sp (s : State) (c : Bool) :
    (s.skipIf c).sp = s.sp := by cases c <;> rfl
@[simp] theorem State.skipIf_mem (s : State) (c : Bool) :
    (s.skipIf c).mem = s.mem := by cases c <;> rfl
@[simp] theorem State.skipIf_display (s : State) (c : Bool) :
    (s.skipIf c).display = s.display := by cases c <;> rfl
@[simp] theorem State.skipIf_keys (s : State) (c : Bool) :
    (s.skipIf c).keys = s.keys := by cases c <;> rfl
@[simp] theorem State.skipIf_dt (s : State) (c : Bool) :
    (s.skipIf c).dt = s.dt := by cases c <;> rfl
@[simp] theorem State.skipIf_st (s : State) (c : Bool) :
    (s.skipIf c).st = s.st := by cases c <;> rfl
@[simp] theorem State.skipIf_status (s : State) (c : Bool) :
    (s.skipIf c).status = s.status := by cases c <;> rfl
@[simp] theorem State.skipIf_fault (s : State) (c : Bool) :
    (s.skipIf c).fault = s.fault := by cases c <;> rfl
@[simp] theorem State.skipIf_draws (s : State) (c : Bool) :
    (s.skipIf c).draws = s.draws := by cases c <;> rfl
@[simp] theorem State.skipIf_pending (s : State) (c : Bool) :
    (s.skipIf c).pending = s.pending := by cases c <;> rfl
@[simp] theorem State.skipIf_readV (s : State) (c : Bool) (r : Reg) :
    (s.skipIf c).readV r = s.readV r := by cases c <;> rfl

/-! ### Register reads -/

/-- A register read after a register write (10_state.md R20: no aliases). -/
theorem State.writeV_readV (s : State) (x y : Reg) (b : Byte) :
    (s.writeV x b).readV y = if y = x then b else s.readV y := by
  simp only [State.readV, State.writeV, Fin.getElem_fin, Vector.getElem_set, Fin.ext_iff]
  split <;> split <;> first | rfl | omega

@[simp] theorem State.writeV_readV_self (s : State) (x : Reg) (b : Byte) :
    (s.writeV x b).readV x = b := by simp [State.writeV_readV]

/-- The result, unless the flag overwrote it. -/
theorem State.writeResultThenFlag_readV (s : State) (x y : Reg) (r f : Byte) :
    (s.writeResultThenFlag x r f).readV y = if y = VF then f else if y = x then r else s.readV y := by
  simp only [State.writeResultThenFlag, State.writeV_readV]

/-- FX65 loads exactly V0 to Vx. -/
theorem State.loadRegs_readV (s : State) (a : Nat) (x r : Reg) :
    (s.loadRegs a x).readV r = if r ≤ x then s.mem.read (a + r.val) else s.readV r := by
  simp [State.loadRegs, State.readV]

/-- DXYN writes VF alone among the registers. -/
theorem State.drawSprite_readV_ne (s : State) (x y r : Reg) (n : Fin 16) (h : r ≠ VF) :
    (s.drawSprite x y n).readV r = s.readV r := by
  simp [State.drawSprite, State.writeV_readV, h]

@[simp] theorem State.drawSprite_display (s : State) (x y : Reg) (n : Fin 16) :
    (s.drawSprite x y n).display =
      (s.display.draw (s.readV x).toNat (s.readV y).toNat (s.mem.readBytes s.i.toNat n.val)).display := rfl

@[simp] theorem State.drawSprite_readV_VF (s : State) (x y : Reg) (n : Fin 16) :
    (s.drawSprite x y n).readV VF =
      flagByte (s.display.draw (s.readV x).toNat (s.readV y).toNat (s.mem.readBytes s.i.toNat n.val)).hit := by
  simp [State.drawSprite]

/-- The registers FX55 stores: one more than `x`, the `k`-th being V[k]. -/
@[simp] theorem State.length_regsUpTo (s : State) (x : Reg) : (s.regsUpTo x).length = x.val + 1 := by
  simp [State.regsUpTo]

theorem State.getElem_regsUpTo (s : State) (x k : Reg) (h : k.val < (s.regsUpTo x).length) :
    (s.regsUpTo x)[k.val] = s.readV k := by
  simp [State.regsUpTo, State.readV]

/-! ### Push and pop -/

theorem State.push?_full {s : State} {w : Word} (h : s.sp.val = 16) : s.push? w = none := by
  simp [State.push?, h]

/-- A push that succeeds changes the slot at SP and SP alone (10_state.md R26). -/
theorem State.push?_room {s : State} {w : Word} (h : s.sp.val < 16) :
    s.push? w = some { s with stack := s.stack.set s.sp.val w, sp := ⟨s.sp.val + 1, by omega⟩ } := by
  simp [State.push?, h]

theorem State.pop?_empty {s : State} (h : s.sp.val = 0) : s.pop? = none := by
  simp [State.pop?, h]

/-- A pop that succeeds reads the slot below SP and changes SP alone (10_state.md R27). -/
theorem State.pop?_occupied {s : State} (h : s.sp.val ≠ 0) :
    s.pop? = some (s.stack[s.sp.val - 1]'(by have := s.sp.isLt; omega),
      { s with sp := ⟨s.sp.val - 1, by omega⟩ }) := by
  simp [State.pop?, h]

/-! ### Taking a fault, checking a range -/

/-- Taking a fault always answers a next state. -/
@[simp] theorem takeFault_eq (c : Cause) (info : Nat) (w : Option Word) (s : State) :
    takeFault c info w s = .next (s.raise c info w) := rfl

theorem checkRange_inside {last : Nat} (h : last ≤ 0xFFF) (i : Instr) (s t : State) :
    checkRange last i s t = .next t := by
  simp [checkRange, Nat.not_lt.mpr h]

theorem checkRange_outside {last : Nat} (h : 0xFFF < last) (i : Instr) (s t : State) :
    checkRange last i s t = .next (s.raise .dataOutOfRange last (some (encode i))) := by
  simp [checkRange, h]

end Sys2Proof.Machine
end

