-- ==== Sys2Proof/Laws/Values.lean ====
section
/-! SUPPORT. One lemma per operand form and flag computation: its value as a number (42_alu.md R200,
43_index_memory.md, 45_keys_timers.md). -/

namespace Sys2Proof.Machine

/-! ## Operand forms -/

theorem toNat_zext16 (nnn : Addr12) : (zext16 nnn).toNat = nnn.toNat := by
  simp only [zext16, BitVec.toNat_setWidth]; omega

theorem toNat_addMod256 (a b : Byte) : (addMod256 a b).toNat = (a.toNat + b.toNat) % 256 := by
  simp [addMod256]

theorem toNat_subMod256 (a b : Byte) :
    ((subMod256 a b).toNat : Int) = ((a.toNat : Int) - b.toNat) % 256 := by
  simp only [subMod256, BitVec.toNat_ofNat]; omega

theorem toNat_shiftRight1 (a : Byte) : (shiftRight1 a).toNat = a.toNat / 2 := by
  simp [shiftRight1, Nat.shiftRight_eq_div_pow]

theorem toNat_shiftLeft1 (a : Byte) : (shiftLeft1 a).toNat = a.toNat * 2 % 256 := by
  simp [shiftLeft1, Nat.shiftLeft_eq]

theorem toNat_indexSum (i : Word) (b : Byte) : (indexSum i b).toNat = (i.toNat + b.toNat) % 65536 := by
  simp [indexSum]

theorem toNat_glyphAddr (b : Byte) : (glyphAddr b).toNat = b.toNat * 5 := by
  simp only [glyphAddr, BitVec.toNat_ofNat]; omega

theorem toNat_offsetTarget (v0 : Byte) (nnn : Addr12) :
    (offsetTarget v0 nnn).toNat = v0.toNat + nnn.toNat := by
  simp only [offsetTarget, BitVec.toNat_ofNat]; omega

theorem map_toNat_bcdDigits (b : Byte) :
    (bcdDigits b).map BitVec.toNat = [b.toNat / 100, b.toNat / 10 % 10, b.toNat % 10] := by
  simp [bcdDigits]; omega

@[simp] theorem length_bcdDigits (b : Byte) : (bcdDigits b).length = 3 := rfl

theorem keyOperand_eq_some_iff (b : Byte) (k : Key) : keyOperand b = some k ↔ b.toNat = k.val := by
  unfold keyOperand; split
  · rw [Option.some.injEq, Fin.ext_iff]
  · simp; omega

theorem keyOperand_eq_none_iff (b : Byte) : keyOperand b = none ↔ 0xF < b.toNat := by
  unfold keyOperand; split <;> simp <;> omega

theorem toNat_keyByte (k : Key) : (keyByte k).toNat = k.val := by
  simp only [keyByte, BitVec.toNat_ofNat]; omega

/-! ## Flags -/

theorem carryFlag_eq (a b : Byte) : carryFlag a b = if 0xFF < a.toNat + b.toNat then 1 else 0 := by
  simp only [carryFlag, flagByte, decide_eq_true_eq]

theorem notBorrowFlag_eq (a b : Byte) : notBorrowFlag a b = if b.toNat ≤ a.toNat then 1 else 0 := by
  simp only [notBorrowFlag, flagByte, decide_eq_true_eq]

theorem flagByte_eq_one_iff (c : Bool) : flagByte c = 1 ↔ c = true := by
  cases c <;> decide

theorem toNat_droppedLowBit (a : Byte) : (droppedLowBit a).toNat = a.toNat % 2 := by
  simp [droppedLowBit, Nat.and_one_is_mod]

theorem toNat_droppedHighBit (a : Byte) : (droppedHighBit a).toNat = a.toNat / 128 := by
  simp only [droppedHighBit, BitVec.toNat_and, BitVec.toNat_ushiftRight, Nat.shiftRight_eq_div_pow]
  rw [show BitVec.toNat (1 : Byte) = 1 from rfl, Nat.and_one_is_mod]
  omega

end Sys2Proof.Machine
end

