-- ==== Sys2Proof/Laws/Exec.lean ====
section
/-! SUPPORT. For each instruction that can fault, its two outcomes as equations; fetching and the cycle; the
step. The other instructions' meanings are equations already (`rfl`). -/

namespace Sys2Proof.Machine

/-! ## Skips -/

/-- A skip is one write of `pc`. -/
theorem State.skipIf_eq (s : State) (c : Bool) :
    s.skipIf c = s.setPc (if c then s.pc + 2 else s.pc) := by
  cases c <;> rfl

theorem advance_twice (a : Word) : a + 2 + 2 = a + 4 := by bv_omega

/-! ## Instructions that can fault -/

theorem exec_ret_empty {s : State} (h : s.sp.val = 0) :
    exec .ret s = .next (s.raise .stackUnderflow 0 (some (encode .ret))) := by
  simp only [exec, execRet, State.pop?_empty (s := s.advance) h, takeFault_eq, h]

theorem exec_ret_occupied {s : State} (h : s.sp.val ≠ 0) :
    exec .ret s = .next { s with
      pc := s.stack[s.sp.val - 1]'(by have := s.sp.isLt; omega)
      sp := ⟨s.sp.val - 1, by omega⟩ } := by
  simp only [exec, execRet, State.pop?_occupied (s := s.advance) h]
  rfl

theorem exec_call_full {s : State} (nnn : Addr12) (h : s.sp.val = 16) :
    exec (.call nnn) s = .next (s.raise .stackOverflow 16 (some (encode (.call nnn)))) := by
  simp only [exec, execCall, State.push?_full (s := s.advance) h, takeFault_eq, h]

theorem exec_call_room {s : State} (nnn : Addr12) (h : s.sp.val < 16) :
    exec (.call nnn) s = .next { s with
      pc := zext16 nnn
      stack := s.stack.set s.sp.val (s.pc + 2)
      sp := ⟨s.sp.val + 1, by omega⟩ } := by
  simp only [exec, execCall, State.push?_room (s := s.advance) h]
  rfl

theorem exec_ldB_inside {s : State} (x : Reg) (h : s.i.toNat + 2 ≤ 0xFFF) :
    exec (.ldB x) s = .next (s.advance.storeBytes s.i.toNat (bcdDigits (s.readV x))) :=
  checkRange_inside h _ _ _

theorem exec_ldB_outside {s : State} (x : Reg) (h : 0xFFF < s.i.toNat + 2) :
    exec (.ldB x) s = .next (s.raise .dataOutOfRange (s.i.toNat + 2) (some (encode (.ldB x)))) :=
  checkRange_outside h _ _ _

theorem exec_ldStore_inside {s : State} (x : Reg) (h : s.i.toNat + x.val ≤ 0xFFF) :
    exec (.ldStore x) s = .next (s.advance.storeBytes s.i.toNat (s.regsUpTo x)) :=
  checkRange_inside h _ _ _

theorem exec_ldStore_outside {s : State} (x : Reg) (h : 0xFFF < s.i.toNat + x.val) :
    exec (.ldStore x) s =
      .next (s.raise .dataOutOfRange (s.i.toNat + x.val) (some (encode (.ldStore x)))) :=
  checkRange_outside h _ _ _

theorem exec_ldLoad_inside {s : State} (x : Reg) (h : s.i.toNat + x.val ≤ 0xFFF) :
    exec (.ldLoad x) s = .next (s.advance.loadRegs s.i.toNat x) :=
  checkRange_inside h _ _ _

theorem exec_ldLoad_outside {s : State} (x : Reg) (h : 0xFFF < s.i.toNat + x.val) :
    exec (.ldLoad x) s =
      .next (s.raise .dataOutOfRange (s.i.toNat + x.val) (some (encode (.ldLoad x)))) :=
  checkRange_outside h _ _ _

theorem exec_drw_inside {s : State} (x y : Reg) (n : Fin 16)
    (h : n = 0 ∨ s.i.toNat + n.val - 1 ≤ 0xFFF) :
    exec (.drw x y n) s = .next (s.drawSprite x y n).advance := by
  simp only [exec, execDrw]
  split
  · rfl
  · next hn => exact checkRange_inside (h.resolve_left hn) _ _ _

theorem exec_drw_outside {s : State} (x y : Reg) (n : Fin 16) (hn : n ≠ 0)
    (h : 0xFFF < s.i.toNat + n.val - 1) :
    exec (.drw x y n) s =
      .next (s.raise .dataOutOfRange (s.i.toNat + n.val - 1) (some (encode (.drw x y n)))) := by
  simp only [exec, execDrw, hn, if_false]
  exact checkRange_outside h _ _ _

theorem skipOnKey_good {s : State} (wanted : Bool) (x : Reg) (i : Instr) {k : Key}
    (h : (s.readV x).toNat = k.val) :
    skipOnKey wanted x i s = .next (s.advance.skipIf (s.readKey k == wanted)) := by
  simp only [skipOnKey, State.advance_readV, (keyOperand_eq_some_iff _ k).mpr h]
  rfl

theorem skipOnKey_bad {s : State} (wanted : Bool) (x : Reg) (i : Instr) (h : 0xF < (s.readV x).toNat) :
    skipOnKey wanted x i s =
      .next (s.raise .keyIndexOutOfRange (s.readV x).toNat (some (encode i))) := by
  simp only [skipOnKey, State.advance_readV, (keyOperand_eq_none_iff _).mpr h, takeFault_eq]

/-! ## The key wait -/

theorem lowestPressed_none_iff (s : State) :
    s.lowestPressed = none ↔ ∀ k, s.readKey k = false := by
  simp [State.lowestPressed, List.find?_eq_none]

/-- The key FX0A takes is pressed and no lower one is. -/
theorem lowestPressed_some {s : State} {k : Key} (h : s.lowestPressed = some k) :
    s.readKey k = true ∧ ∀ j < k, s.readKey j = false := by
  obtain ⟨hk, as, bs, hl, has⟩ := List.find?_eq_some_iff_append.mp h
  refine ⟨hk, fun j hj => ?_⟩
  have hp : (as ++ k :: bs).Pairwise (· < ·) := hl ▸ List.pairwise_lt_finRange 16
  have hmem : j ∈ as ++ k :: bs := hl ▸ List.mem_finRange j
  rcases List.mem_append.mp hmem with hj' | hj'
  · simpa using has j hj'
  · have hkb := (List.pairwise_append.mp hp).2.1
    rcases List.mem_cons.mp hj' with rfl | hj'
    · exact absurd hj (lt_irrefl _)
    · exact absurd (List.rel_of_pairwise_cons hkb hj') (not_lt.mpr hj.le)

/-! ## Fetch, cycle, step -/

theorem fetch?_inside {s : State} (h : s.pc.toNat + 1 ≤ 0xFFF) :
    s.fetch? = some (wordOfBytes (s.mem.read s.pc.toNat) (s.mem.read (s.pc.toNat + 1))) :=
  if_neg (by omega)

theorem fetch?_outside {s : State} (h : 0xFFF < s.pc.toNat + 1) : s.fetch? = none := if_pos h

theorem fetch?_some_pc {s : State} {w : Word} (h : s.fetch? = some w) : s.pc.toNat + 1 ≤ 0xFFF := by
  by_contra hc
  simp [fetch?_outside (s := s) (by omega)] at h

theorem cycle_halted {s : State} (h : s.status = .halted) : cycle s = .next s := by
  unfold cycle; rw [h]

theorem cycle_noFetch {s : State} (h : s.status = .running) (hf : s.fetch? = none) :
    cycle s = .next (s.raise .fetchOutOfRange s.pc.toNat none) := by
  unfold cycle; rw [h, hf]; rfl

theorem cycle_illegal {s : State} {w : Word} {e : Reject} (h : s.status = .running)
    (hf : s.fetch? = some w) (hd : decodeWord w = .error e) :
    cycle s = .next (s.raise .illegalInstruction w.toNat (some w)) := by
  unfold cycle; rw [h, hf]; simp only [hd]; rfl

theorem cycle_exec {s : State} {w : Word} {i : Instr} (h : s.status = .running)
    (hf : s.fetch? = some w) (hd : decodeWord w = .ok i) : cycle s = exec i s := by
  unfold cycle; rw [h, hf]; simp only [hd]

theorem step_nothingPending {s : State} (h : s.pending = []) : step s = cycle s := by
  unfold step; rw [h]

theorem step_pending {s : State} {op : HostOp} {later : List HostOp} (h : s.pending = op :: later) :
    step s = performState op { s with pending := later } := by
  unfold step; rw [h]

theorem performState_next {op : HostOp} {s t : State} {r : Reply} (h : perform op s = .next (t, r)) :
    performState op s = .next t := by
  unfold performState; rw [h]

/-- The whole machine behind `core`, one run step at a time. -/
theorem core_run_succ {k : Nat} {s t : State} (h : step s = .next t) :
    Host.Core.run core (k + 1) s = Host.Core.run core k t := by
  have hs : core.step s = .next t := h
  simp only [Host.Core.run, hs]

end Sys2Proof.Machine
end

