-- ==== Sys2Proof/Laws/PerInstr.lean ====
section
/-! SUPPORT. The family EncodesItsRow: the word of an instruction, under its row's mask, is its row's match
word (30_encoding.md R94). One lemma per constructor. -/

namespace Sys2Proof.Laws

/-! ## What each mask leaves of each format -/

theorem append_and_append {n m : Nat} (a c : BitVec n) (b d : BitVec m) :
    (a ++ b) &&& (c ++ d) = (a &&& c) ++ (b &&& d) := by
  ext i hi
  simp only [BitVec.getElem_and, BitVec.getElem_append]
  split <;> simp

theorem nibble_and_ones (a : BitVec 4) : a &&& 0xF#4 = a := BitVec.and_allOnes

theorem mask_formatA (op : BitVec 4) (a : Addr12) : formatA op a &&& 0xF000 = formatA op 0 := by
  refine (append_and_append op 0xF#4 a 0#12).trans ?_
  rw [BitVec.and_zero, nibble_and_ones]; rfl

theorem mask_formatXK_op (op : BitVec 4) (x : Reg) (k : Byte) :
    formatXK op x k &&& 0xF000 = formatXK op 0 0 := by
  refine (append_and_append (op ++ regBits x) (0xF#4 ++ 0#4) k 0#8).trans ?_
  rw [append_and_append, BitVec.and_zero, BitVec.and_zero, nibble_and_ones]; rfl

theorem mask_formatXK_low (op : BitVec 4) (x : Reg) (k : Byte) :
    formatXK op x k &&& 0xF0FF = formatXK op 0 k := by
  refine (append_and_append (op ++ regBits x) (0xF#4 ++ 0#4) k 0xFF#8).trans ?_
  rw [append_and_append, BitVec.and_zero, nibble_and_ones, show k &&& 0xFF#8 = k from BitVec.and_allOnes]
  rfl

theorem mask_formatXYN_op (op : BitVec 4) (x y : Reg) (n : BitVec 4) :
    formatXYN op x y n &&& 0xF000 = formatXYN op 0 0 0 := by
  refine (append_and_append (op ++ regBits x ++ regBits y) (0xF#4 ++ 0#4 ++ 0#4) n 0#4).trans ?_
  rw [append_and_append, append_and_append, BitVec.and_zero, BitVec.and_zero, BitVec.and_zero,
    nibble_and_ones]
  rfl

theorem mask_formatXYN_low (op : BitVec 4) (x y : Reg) (n : BitVec 4) :
    formatXYN op x y n &&& 0xF00F = formatXYN op 0 0 n := by
  refine (append_and_append (op ++ regBits x ++ regBits y) (0xF#4 ++ 0#4 ++ 0#4) n 0xF#4).trans ?_
  rw [append_and_append, append_and_append, BitVec.and_zero, BitVec.and_zero, nibble_and_ones,
    nibble_and_ones]
  rfl

/-- The encoded word lies in the instruction's own row of the opcode table. -/
def EncodesItsRow.Statement (i : Instr) : Prop := encode i &&& rowMask i = rowMatch i

theorem EncodesItsRow.nop : EncodesItsRow.Statement .nop := rfl
theorem EncodesItsRow.cls : EncodesItsRow.Statement .cls := rfl
theorem EncodesItsRow.ret : EncodesItsRow.Statement .ret := rfl
theorem EncodesItsRow.jp (a : Addr12) : EncodesItsRow.Statement (.jp a) :=
  (mask_formatA _ a).trans rfl
theorem EncodesItsRow.call (a : Addr12) : EncodesItsRow.Statement (.call a) :=
  (mask_formatA _ a).trans rfl
theorem EncodesItsRow.seImm (x : Reg) (k : Byte) : EncodesItsRow.Statement (.seImm x k) :=
  (mask_formatXK_op _ x k).trans rfl
theorem EncodesItsRow.sneImm (x : Reg) (k : Byte) : EncodesItsRow.Statement (.sneImm x k) :=
  (mask_formatXK_op _ x k).trans rfl
theorem EncodesItsRow.seReg (x y : Reg) : EncodesItsRow.Statement (.seReg x y) :=
  (mask_formatXYN_low _ x y _).trans rfl
theorem EncodesItsRow.ldImm (x : Reg) (k : Byte) : EncodesItsRow.Statement (.ldImm x k) :=
  (mask_formatXK_op _ x k).trans rfl
theorem EncodesItsRow.addImm (x : Reg) (k : Byte) : EncodesItsRow.Statement (.addImm x k) :=
  (mask_formatXK_op _ x k).trans rfl
theorem EncodesItsRow.ldReg (x y : Reg) : EncodesItsRow.Statement (.ldReg x y) :=
  (mask_formatXYN_low _ x y _).trans rfl
theorem EncodesItsRow.or (x y : Reg) : EncodesItsRow.Statement (.or x y) :=
  (mask_formatXYN_low _ x y _).trans rfl
theorem EncodesItsRow.and (x y : Reg) : EncodesItsRow.Statement (.and x y) :=
  (mask_formatXYN_low _ x y _).trans rfl
theorem EncodesItsRow.xor (x y : Reg) : EncodesItsRow.Statement (.xor x y) :=
  (mask_formatXYN_low _ x y _).trans rfl
theorem EncodesItsRow.addReg (x y : Reg) : EncodesItsRow.Statement (.addReg x y) :=
  (mask_formatXYN_low _ x y _).trans rfl
theorem EncodesItsRow.sub (x y : Reg) : EncodesItsRow.Statement (.sub x y) :=
  (mask_formatXYN_low _ x y _).trans rfl
theorem EncodesItsRow.shr (x y : Reg) : EncodesItsRow.Statement (.shr x y) :=
  (mask_formatXYN_low _ x y _).trans rfl
theorem EncodesItsRow.subn (x y : Reg) : EncodesItsRow.Statement (.subn x y) :=
  (mask_formatXYN_low _ x y _).trans rfl
theorem EncodesItsRow.shl (x y : Reg) : EncodesItsRow.Statement (.shl x y) :=
  (mask_formatXYN_low _ x y _).trans rfl
theorem EncodesItsRow.sneReg (x y : Reg) : EncodesItsRow.Statement (.sneReg x y) :=
  (mask_formatXYN_low _ x y _).trans rfl
theorem EncodesItsRow.ldI (a : Addr12) : EncodesItsRow.Statement (.ldI a) :=
  (mask_formatA _ a).trans rfl
theorem EncodesItsRow.jpV0 (a : Addr12) : EncodesItsRow.Statement (.jpV0 a) :=
  (mask_formatA _ a).trans rfl
theorem EncodesItsRow.rnd (x : Reg) (k : Byte) : EncodesItsRow.Statement (.rnd x k) :=
  (mask_formatXK_op _ x k).trans rfl
theorem EncodesItsRow.drw (x y : Reg) (n : Fin 16) : EncodesItsRow.Statement (.drw x y n) :=
  (mask_formatXYN_op _ x y (regBits n)).trans rfl
theorem EncodesItsRow.skp (x : Reg) : EncodesItsRow.Statement (.skp x) :=
  (mask_formatXK_low _ x _).trans rfl
theorem EncodesItsRow.sknp (x : Reg) : EncodesItsRow.Statement (.sknp x) :=
  (mask_formatXK_low _ x _).trans rfl
theorem EncodesItsRow.ldVxDt (x : Reg) : EncodesItsRow.Statement (.ldVxDt x) :=
  (mask_formatXK_low _ x _).trans rfl
theorem EncodesItsRow.ldVxK (x : Reg) : EncodesItsRow.Statement (.ldVxK x) :=
  (mask_formatXK_low _ x _).trans rfl
theorem EncodesItsRow.ldDtVx (x : Reg) : EncodesItsRow.Statement (.ldDtVx x) :=
  (mask_formatXK_low _ x _).trans rfl
theorem EncodesItsRow.ldStVx (x : Reg) : EncodesItsRow.Statement (.ldStVx x) :=
  (mask_formatXK_low _ x _).trans rfl
theorem EncodesItsRow.addI (x : Reg) : EncodesItsRow.Statement (.addI x) :=
  (mask_formatXK_low _ x _).trans rfl
theorem EncodesItsRow.ldF (x : Reg) : EncodesItsRow.Statement (.ldF x) :=
  (mask_formatXK_low _ x _).trans rfl
theorem EncodesItsRow.ldB (x : Reg) : EncodesItsRow.Statement (.ldB x) :=
  (mask_formatXK_low _ x _).trans rfl
theorem EncodesItsRow.ldStore (x : Reg) : EncodesItsRow.Statement (.ldStore x) :=
  (mask_formatXK_low _ x _).trans rfl
theorem EncodesItsRow.ldLoad (x : Reg) : EncodesItsRow.Statement (.ldLoad x) :=
  (mask_formatXK_low _ x _).trans rfl

end Sys2Proof.Laws
end

