-- ==== Sys2Proof/Tests/Slice0.lean ====
section
/-! SUPPORT. The model's own tests. Expected values come from spec/95_test_vectors.md (the vector is named
in the docstring) or are written out from the encodings of 30_encoding.md R92 and R94; then one witness for the
hypotheses of each obligation that has any. -/

namespace Sys2Proof.Tests

open Sys2Proof Machine

set_option Elab.async false

/-! ## WellFormed: each check refuses an ill-formed operand -/

theorem test_register_field_is_4_bits : (Operand.reg 16).fits = false ∧ (Operand.reg 15).fits = true := by decide
theorem test_row_field_is_4_bits : (Operand.rows 16).fits = false ∧ (Operand.rows 15).fits = true := by decide
theorem test_byte_field_is_8_bits : (Operand.imm8 256).fits = false ∧ (Operand.imm8 255).fits = true := by decide
theorem test_address_field_is_12_bits :
    (Operand.addr12 4096).fits = false ∧ (Operand.addr12 4095).fits = true := by decide

/-! ## Decoding: one word per row of the table, written out bit by bit from its encoding -/

theorem test_decode_control :
    decodeWord 0b0000000000000000 = .ok .nop ∧
    decodeWord 0b0000000011101110 = .ok .ret ∧
    decodeWord 0b0001001000110100 = .ok (.jp 0x234) ∧
    decodeWord 0b0010101010111100 = .ok (.call 0xABC) ∧
    decodeWord 0b0011001101000010 = .ok (.seImm 3 0x42) ∧
    decodeWord 0b0100111100000001 = .ok (.sneImm 15 0x01) ∧
    decodeWord 0b0101000100100000 = .ok (.seReg 1 2) ∧
    decodeWord 0b1001001000010000 = .ok (.sneReg 2 1) ∧
    decodeWord 0b1011001100000000 = .ok (.jpV0 0x300) := by
  decide

theorem test_decode_alu_immediate :
    decodeWord 0b0110111110101011 = .ok (.ldImm 15 0xAB) ∧
    decodeWord 0b0111000000000011 = .ok (.addImm 0 0x03) ∧
    decodeWord 0b1100000100001111 = .ok (.rnd 1 0x0F) := by
  decide

theorem test_decode_alu_registers :
    decodeWord 0b1000000100100000 = .ok (.ldReg 1 2) ∧
    decodeWord 0b1000000100100001 = .ok (.or 1 2) ∧
    decodeWord 0b1000000100100010 = .ok (.and 1 2) ∧
    decodeWord 0b1000000100100011 = .ok (.xor 1 2) ∧
    decodeWord 0b1000000100100100 = .ok (.addReg 1 2) ∧
    decodeWord 0b1000000100100101 = .ok (.sub 1 2) ∧
    decodeWord 0b1000000100100110 = .ok (.shr 1 2) ∧
    decodeWord 0b1000000100100111 = .ok (.subn 1 2) ∧
    decodeWord 0b1000111100011110 = .ok (.shl 15 1) := by
  decide

theorem test_decode_index :
    decodeWord 0b1010000100100011 = .ok (.ldI 0x123) ∧
    decodeWord 0b1111001000011110 = .ok (.addI 2) ∧
    decodeWord 0b1111101000101001 = .ok (.ldF 10) ∧
    decodeWord 0b1111000000110011 = .ok (.ldB 0) ∧
    decodeWord 0b1111111101010101 = .ok (.ldStore 15) ∧
    decodeWord 0b1111010001100101 = .ok (.ldLoad 4) := by
  decide

theorem test_decode_display :
    decodeWord 0b0000000011100000 = .ok .cls ∧
    decodeWord 0b1101010110100111 = .ok (.drw 5 10 7) := by
  decide

theorem test_decode_keys_timers :
    decodeWord 0b1110000010011110 = .ok (.skp 0) ∧
    decodeWord 0b1110111110100001 = .ok (.sknp 15) ∧
    decodeWord 0b1111001100001010 = .ok (.ldVxK 3) ∧
    decodeWord 0b1111000100000111 = .ok (.ldVxDt 1) ∧
    decodeWord 0b1111000000010101 = .ok (.ldDtVx 0) ∧
    decodeWord 0b1111001000011000 = .ok (.ldStVx 2) := by
  decide

/-- V-DEC-4 to V-DEC-11. -/
theorem test_decode_rejects :
    decodeWord 0x0123 = .error (.illegal 0x0123) ∧
    decodeWord 0x00E1 = .error (.illegal 0x00E1) ∧
    decodeWord 0x00FF = .error (.illegal 0x00FF) ∧
    decodeWord 0x5121 = .error (.illegal 0x5121) ∧
    decodeWord 0x9121 = .error (.illegal 0x9121) ∧
    decodeWord 0x8008 = .error (.illegal 0x8008) ∧
    decodeWord 0x800C = .error (.illegal 0x800C) ∧
    decodeWord 0x800F = .error (.illegal 0x800F) ∧
    decodeWord 0xE0A2 = .error (.illegal 0xE0A2) ∧
    decodeWord 0xE000 = .error (.illegal 0xE000) ∧
    decodeWord 0xF000 = .error (.illegal 0xF000) ∧
    decodeWord 0xF075 = .error (.illegal 0xF075) ∧
    decodeWord 0xFFFF = .error (.illegal 0xFFFF) := by
  decide

/-- The decoder takes bytes high byte first, returns what follows, and rejects a half word. -/
theorem test_decode_bytes : decode [0x12, 0x34, 0x56] = .ok (.jp 0x234, [0x56]) ∧
    decode [0x12] = .error .truncated := by decide

/-- The host's question, in the numbering of spec/opcode_table.json. -/
theorem test_decodeTableWord : decodeTableWord 16 0xD5A7 = some (.drw 5 10 7) ∧
    decodeTableWord 16 0xFFFF = none := by decide

/-! ## One step on a small state -/

/-- The reset state with V0, V1, V2, VF and I as given. -/
def start (v0 v1 v2 vF : Byte := 0) (i : Word := 0) : State :=
  { State.reset with v := (((State.reset.v.set 0 v0).set 1 v1).set 2 v2).set 15 vF, i := i }

/-- `s` with bytes stored from `a` on. -/
def storing (s : State) (a : Nat) (bs : List Byte) : State := s.storeBytes a bs

/-- `s` with the pixels of a list on. -/
def lit (s : State) (ps : List (Fin 32 × Fin 64)) : State :=
  { s with display := ps.foldl (fun d p => d.flip p.1 p.2) s.display }

/-- The state after the word `w`, placed at `pc`, has run. -/
def ran (w : Word) (s : State) : State :=
  match step (s.placeWord w) with
  | .next t => t
  | .fault _ | .refused _ => s

/-- The state after one step. -/
def stepOf (s : State) : Option State :=
  match step s with
  | .next t => some t
  | .fault _ | .refused _ => none

/-- The state and the reply after one host operation. -/
def performed (op : HostOp) (s : State) : Option (State × Reply) :=
  match perform op s with
  | .next p => some p
  | .fault _ | .refused _ => none

/-- The reset state HALTED by an RET on the empty stack. -/
def haltedState : State := (State.reset.placeWord 0x00EE).raise .stackUnderflow 0 (some 0x00EE)

/-- A step ended in the fault `c` with `info` at address `a`, `pc` still there. -/
def faulted (t : State) (c : Cause) (a w : Word) (info : BitVec 17) : Bool :=
  t.status = .halted && t.fault = ⟨c, a, some w, info⟩ && t.pc = a

/-- Whether each of the listed pixels is on. -/
def pixels (t : State) (ps : List (Fin 32 × Fin 64)) : List Bool := ps.map fun p => t.display.pixel p.1 p.2

/-! ### Control flow -/

/-- R151. -/
theorem test_nop : (ran 0x0000 start).pc = 0x202 := by decide +kernel

/-- V-RET-1. -/
theorem test_ret :
    let t := ran 0x00EE { start with sp := 1, stack := start.stack.set 0 0x206 }
    t.pc = 0x206 ∧ t.sp = 0 ∧ t.stack[0] = 0x206 := by
  decide +kernel

/-- V-RET-2. -/
theorem test_ret_empty :
    faulted (ran 0x00EE start) .stackUnderflow 0x200 0x00EE 0 = true := by
  decide +kernel

/-- V-JP-1, V-PC-1. -/
theorem test_jp : (ran 0x1234 start).pc = 0x234 ∧ (ran 0x1FFE start).pc = 0xFFE := by decide +kernel

/-- V-CALL-2. -/
theorem test_call :
    let t := ran 0x2300 { start with sp := 15 }
    t.stack[15] = 0x202 ∧ t.sp = 16 ∧ t.pc = 0x300 := by
  decide +kernel

/-- V-CALL-3, and the word of program P6. -/
theorem test_call_full :
    faulted (ran 0x2300 { start with sp := 16 }) .stackOverflow 0x200 0x2300 16 = true ∧
    (ran 0x2300 { start with sp := 16 }).sp = 16 := by
  decide +kernel

/-- V-SKIP-1 and V-SKIP-2, with V2 for V3. -/
theorem test_seImm :
    (ran 0x3242 (start (v2 := 0x42))).pc = 0x204 ∧
    (ran 0x3241 (start (v2 := 0x42))).pc = 0x202 := by
  decide +kernel

/-- V-SKIP-3 and V-SKIP-4, with V2 for V3. -/
theorem test_sneImm :
    (ran 0x4242 (start (v2 := 0x42))).pc = 0x202 ∧
    (ran 0x4241 (start (v2 := 0x42))).pc = 0x204 := by
  decide +kernel

/-- V-SKIP-5, V-SKIP-6 and V-SKIP-7. -/
theorem test_seReg :
    (ran 0x5120 (start 0 7 7)).pc = 0x204 ∧
    (ran 0x5120 (start 0 7 8)).pc = 0x202 ∧ (ran 0x5110 (start 0 7 8)).pc = 0x204 := by
  decide +kernel

/-- V-SKIP-8 and V-SKIP-9. -/
theorem test_sneReg :
    (ran 0x9120 (start 0 7 8)).pc = 0x204 ∧ (ran 0x9110 (start 0 7 8)).pc = 0x202 := by
  decide +kernel

/-- V-PC-7. -/
theorem test_skip_at_the_end :
    (ran 0x3000 { start with pc := 0xFFE }).pc = 0x1002 ∧
    (ran 0x3000 { start with pc := 0xFFE }).status = .running := by
  decide +kernel

/-- V-BJP-2 and V-BJP-3. -/
theorem test_jpV0 :
    (ran 0xBFFF (start 0xFF)).pc = 0x10FE ∧ (ran 0xB300 (start 0x01 0 0x50)).pc = 0x301 := by
  decide +kernel

/-! ### Registers and the ALU -/

/-- V-LD-1. -/
theorem test_ldImm : (ran 0x6FAB start).readV VF = 0xAB := by decide +kernel

/-- V-ADDI-2. -/
theorem test_addImm :
    let t := ran 0x7001 (start 0xFF (vF := 0x55))
    t.readV 0 = 0x00 ∧ t.readV VF = 0x55 := by
  decide +kernel

/-- V-MOV-1. -/
theorem test_ldReg : (ran 0x8010 (start 0 0x33)).readV 0 = 0x33 := by decide +kernel

/-- V-OR-1. -/
theorem test_or :
    let t := ran 0x8011 (start 0x0F 0xF0 (vF := 0x07))
    t.readV 0 = 0xFF ∧ t.readV VF = 0x07 := by
  decide +kernel

/-- V-AND-1. -/
theorem test_and :
    let t := ran 0x8012 (start 0x3C 0x0F (vF := 0x07))
    t.readV 0 = 0x0C ∧ t.readV VF = 0x07 := by
  decide +kernel

/-- V-XOR-1. -/
theorem test_xor : (ran 0x8013 (start 0x3C 0x0F)).readV 0 = 0x33 := by decide +kernel

/-- V-ADD-3. -/
theorem test_addReg :
    let t := ran 0x8014 (start 0xFF 0xFF)
    t.readV 0 = 0xFE ∧ t.readV VF = 1 := by
  decide +kernel

/-- V-ADD-5 and V-ADD-6: with x = F the flag wins. -/
theorem test_addReg_VF :
    (ran 0x8F14 (start (v1 := 1) (vF := 0xFF))).readV VF = 1 ∧
    (ran 0x8F14 (start (v1 := 1) (vF := 0x01))).readV VF = 0 := by
  decide +kernel

/-- V-SUB-2 and V-SUB-3. -/
theorem test_sub :
    let t := ran 0x8015 (start 0x05 0x07)
    let u := ran 0x8015 (start 0x05 0x05)
    t.readV 0 = 0xFE ∧ t.readV VF = 0 ∧ u.readV 0 = 0 ∧ u.readV VF = 1 := by
  decide +kernel

/-- V-SUBN-1 and V-SUBN-2. -/
theorem test_subn :
    let t := ran 0x8017 (start 0x05 0x07)
    let u := ran 0x8017 (start 0x07 0x05)
    t.readV 0 = 0x02 ∧ t.readV VF = 1 ∧ u.readV 0 = 0xFE ∧ u.readV VF = 0 := by
  decide +kernel

/-- V-SHR-1 and V-SHR-3: Y is ignored. -/
theorem test_shr :
    let t := ran 0x8206 (start (v2 := 0x05))
    let u := ran 0x8216 (start 0 0xFF 0x04)
    t.readV 2 = 0x02 ∧ t.readV VF = 1 ∧ u.readV 2 = 0x02 ∧ u.readV VF = 0 := by
  decide +kernel

/-- V-SHR-4. -/
theorem test_shr_VF : (ran 0x8F06 (start (vF := 0x03))).readV VF = 0x00 := by decide +kernel

/-- V-SHL-1 and V-SHL-2. -/
theorem test_shl :
    let t := ran 0x820E (start (v2 := 0x81))
    let u := ran 0x820E (start (v2 := 0x40))
    t.readV 2 = 0x02 ∧ t.readV VF = 1 ∧ u.readV 2 = 0x80 ∧ u.readV VF = 0 := by
  decide +kernel

/-- V-SHL-4 and V-SHL-5. -/
theorem test_shl_VF :
    (ran 0x8F0E (start (vF := 0x80))).readV VF = 0x02 ∧
    (ran 0x8F0E (start (vF := 0x7F))).readV VF = 0x00 := by
  decide +kernel

/-- V-RND-1, V-RND-2 and V-RND-3, on the value the instruction computes from its draw. -/
theorem test_maskedDraw :
    maskedDraw 0xA7 0x0F = 0x07 ∧ maskedDraw 0xFF 0x00 = 0x00 ∧ maskedDraw 0x5A 0xFF = 0x5A := by
  decide +kernel

/-- R212: the step writes the draw under the mask, whatever the draw is, and consumes it. -/
theorem test_rnd :
    (ran 0xC10F start).readV 1 = maskedDraw (Config.rnd 0) 0x0F ∧ (ran 0xC10F start).draws = 1 := by
  exact ⟨rfl, rfl⟩

/-! ### The index register and memory -/

/-- V-I-1. -/
theorem test_ldI : (ran 0xA123 start).i = 0x0123 := by decide +kernel

/-- V-I-3 and V-I-4. -/
theorem test_addI :
    (ran 0xF01E (start 1 (i := 0xFFFF))).i = 0x0000 ∧ (ran 0xF01E (start 1 (i := 0x0FFF))).i = 0x1000 := by
  decide +kernel

/-- V-F-2 and V-F-3. -/
theorem test_ldF :
    (ran 0xF029 (start 0xFF)).i = 0x04FB ∧ (ran 0xF029 (start 0x10)).i = 0x0050 := by
  decide +kernel

/-- E1 and V-BCD-3. -/
theorem test_ldB :
    (ran 0xF033 (start 234 (i := 0x300))).mem.readBytes 0x300 3 = [2, 3, 4] ∧
    (ran 0xF033 (start 0x7B (i := 0xFFD))).mem.readBytes 0xFFD 3 = [1, 2, 3] := by
  decide +kernel

/-- V-BCD-4. -/
theorem test_ldB_outside :
    let t := ran 0xF033 (start 0x7B (i := 0xFFE))
    faulted t .dataOutOfRange 0x200 0xF033 0x1000 = true ∧ t.mem.readBytes 0xFFE 2 = [0, 0] := by
  decide +kernel

/-- V-ST-1 and V-ST-2. -/
theorem test_ldStore :
    let t := ran 0xF255 (start 1 2 3 (i := 0x300))
    t.mem.readBytes 0x300 4 = [1, 2, 3, 0] ∧ t.i = 0x300 ∧
    (ran 0xF055 (start 0xAA (i := 0xFFF))).mem.read 0xFFF = 0xAA := by
  decide +kernel

/-- V-ST-3 and V-ST-4. -/
theorem test_ldStore_outside :
    faulted (ran 0xF155 (start (i := 0xFFF))) .dataOutOfRange 0x200 0xF155 0x1000 = true ∧
    faulted (ran 0xF055 (start (i := 0xFFFF))) .dataOutOfRange 0x200 0xF055 0xFFFF = true := by
  decide +kernel

/-- V-LDM-3, the default FONT. -/
theorem test_ldLoad :
    let t := ran 0xF465 start
    t.readV 0 = 0xF0 ∧ t.readV 1 = 0x90 ∧ t.readV 4 = 0xF0 ∧ t.readV 5 = 0 := by
  decide +kernel

/-- V-LDM-2. -/
theorem test_ldLoad_outside :
    let t := ran 0xFF65 (start 1 2 3 4 0xFF2)
    faulted t .dataOutOfRange 0x200 0xFF65 0x1001 = true ∧ t.readV 0 = 1 := by
  decide +kernel

/-- Writing back the reset contents removes the entry (log 8). -/
theorem test_write_keeps_the_form :
    ((State.reset.mem.write 0x300 7).write 0x300 0) = State.reset.mem ∧
    ((State.reset.mem.write 0 7).write 0 0xF0) = State.reset.mem := by
  decide +kernel

/-! ### The display -/

/-- V-CLS-1. -/
theorem test_cls :
    let t := ran 0x00E0 (lit (start (vF := 5)) [(0, 0), (31, 63)])
    pixels t [(0, 0), (31, 63), (31, 0)] = [false, false, false] ∧ t.readV VF = 5 := by
  decide +kernel

/-- V-DRW-10: both axes wrap. -/
theorem test_drw_wraps :
    let t := ran 0xD013 (storing (start 62 30 (i := 0x300)) 0x300 [0xC0, 0xC0, 0xC0])
    pixels t [(0, 62), (0, 63), (30, 62), (31, 63), (30, 61), (0, 0), (1, 62)] =
      [true, true, true, true, false, false, false] ∧ t.readV VF = 0 := by
  decide +kernel

/-- V-DRW-9 and V-DRW-8: VF as a coordinate is read before it is written; a collision. -/
theorem test_drw_VF :
    let t := ran 0xDF11 (storing (start (vF := 10) (i := 0x300)) 0x300 [0x80])
    let u := ran 0xD011 (storing (lit (start (i := 0x300)) [(0, 0), (0, 1)]) 0x300 [0xC0])
    pixels t [(0, 10), (0, 11), (10, 0)] = [true, false, false] ∧ t.readV VF = 0 ∧
      pixels u [(0, 0), (0, 1)] = [false, false] ∧ u.readV VF = 1 := by
  decide +kernel

/-- V-DRW-5 and V-DRW-6. -/
theorem test_drw_range :
    let t := ran 0xD010 (start (vF := 5) (i := 0xFFFF))
    t.status = .running ∧ t.readV VF = 0 ∧
    faulted (ran 0xD013 (start (i := 0xFFE))) .dataOutOfRange 0x200 0xD013 0x1000 = true := by
  decide +kernel

/-! ### Keys and timers -/

/-- V-KEY-1, V-KEY-2 and V-KEY-5. -/
theorem test_skp :
    (ran 0xE09E ((start 5).setKey 5 true)).pc = 0x204 ∧ (ran 0xE09E (start 5)).pc = 0x202 ∧
    faulted (ran 0xE09E (start 0x10)) .keyIndexOutOfRange 0x200 0xE09E 0x10 = true := by
  decide +kernel

/-- V-KEY-3, V-KEY-4 and V-KEY-6. -/
theorem test_sknp :
    (ran 0xE0A1 (start 5)).pc = 0x204 ∧ (ran 0xE0A1 ((start 5).setKey 5 true)).pc = 0x202 ∧
    faulted (ran 0xE0A1 (start 0xFF)) .keyIndexOutOfRange 0x200 0xE0A1 0xFF = true := by
  decide +kernel

/-- V-WAIT-1, with V2 for V3. -/
theorem test_ldVxK_waits :
    (ran 0xF20A (start (v2 := 0x99))).pc = 0x200 ∧
    (ran 0xF20A (start (v2 := 0x99))).readV 2 = 0x99 := by
  decide +kernel

/-- V-WAIT-2 and V-WAIT-3. -/
theorem test_ldVxK :
    (ran 0xF20A (start.setKey 15 true)).readV 2 = 0x0F ∧
    (ran 0xFF0A (((start (vF := 9)).setKey 0 true).setKey 15 true)).readV VF = 0 := by
  decide +kernel

/-- V-DT-1. -/
theorem test_ldVxDt : (ran 0xF107 { start with dt := 0x3C }).readV 1 = 0x3C := by decide +kernel

/-- V-DT-2. -/
theorem test_ldDtVx : (ran 0xF015 (start 0x3C)).dt = 0x3C := by decide +kernel

/-- V-SND-1: the register of the X field. -/
theorem test_ldStVx : (ran 0xF218 (start 0 0x09 0x05)).st = 0x05 := by decide +kernel

/-- R370, D12. -/
theorem test_cause_codes :
    [Cause.none, .illegalInstruction, .stackOverflow, .stackUnderflow, .dataOutOfRange, .fetchOutOfRange,
      .keyIndexOutOfRange].map Cause.code = [0, 1, 2, 3, 4, 5, 6] := by
  decide

/-! ### Fetching and the host's operations -/

/-- V-PC-3 and V-PC-4. -/
theorem test_fetch_outside :
    stepOf { start with pc := 0x1000 } = some { start with
      pc := 0x1000, status := .halted, fault := ⟨.fetchOutOfRange, 0x1000, none, 0x1000⟩ } ∧
    (stepOf { start with pc := 0xFFF }).map (fun t => t.fault) = some ⟨.fetchOutOfRange, 0xFFF, none, 0xFFF⟩ := by
  decide +kernel

/-- V-PC-5: a word straddling, and illegal. -/
theorem test_fetch_odd :
    faulted (ran 0x0160 { start with pc := 0x201 }) .illegalInstruction 0x201 0x0160 0x0160 = true := by
  decide +kernel

/-- V-PC-6, the default FONT. -/
theorem test_fetch_font :
    (stepOf { start with pc := 0 }).map (fun t => t.fault) =
      some ⟨.illegalInstruction, 0, some 0xF090, 0xF090⟩ := by
  decide +kernel

/-- V-TT-1 and V-TT-3. -/
theorem test_timerTick :
    performed .timerTick { start with dt := 2, st := 1 } =
      some ({ start with dt := 1, st := 0 }, .ticked true) ∧
    performed .timerTick start = some (start, .ticked false) := by
  decide +kernel

/-- V-LOAD-3 and V-LOAD-2. -/
theorem test_load :
    (performed (.load [0x60, 0x01]) { start 7 with pc := 0x204 }).map
        (fun p => (p.1.mem.cells, p.1.pc, p.2)) =
      some ([(0x200, 0x60), (0x201, 0x01)], 0x204, .ok) ∧
    performed (.load (List.replicate 3585 0)) start = some (start, .rejected .imageTooLarge) := by
  decide +kernel

/-- V-KEYOP-1 and V-KEYOP-2. -/
theorem test_key :
    performed (.key 16 true) start = some (start, .rejected .keyIndexInvalid) ∧
    performed (.key 3 false) (start.setKey 3 true) = some (start, .ok) := by
  decide +kernel

/-- V-HALT-1. -/
theorem test_halted :
    performed .step haltedState = some (haltedState, .rejected .halted) ∧
    performed (.key 3 true) haltedState = some (haltedState, .rejected .halted) := by
  decide +kernel

/-- Log 3: a pending operation is performed before any STEP. -/
theorem test_pending_first :
    (stepOf { start with dt := 2, pending := [.timerTick, .step] }).map
        (fun t => (t.dt, t.pc, t.pending)) =
      some (1, 0x200, [.step]) := by
  decide +kernel

/-- Log 9: the very next step runs the word, also from a HALTED state. -/
theorem test_withFetchWord :
    (stepOf (State.reset.withFetchWord 16 0x6FAB)).map (fun t => (t.readV VF, t.pc)) =
      some (0xAB, 0x202) ∧
    ((State.reset.raise .illegalInstruction 0 none).withFetchWord 16 0x00E0).status = .running := by
  decide +kernel

/-! ## Witnesses: states and operands that meet the hypotheses of an obligation -/

theorem witness_DecodeEncodeRoundTrip : (Instr.drw 15 15 15).wellFormed = true ∧
    (Instr.jp 0xFFF).wellFormed = true ∧ (Instr.seImm 15 0xFF).wellFormed = true := by decide

theorem witness_EncodeDecodeRoundTrip : decodeWord 0xFF65 = .ok (.ldLoad 15) := by decide

theorem witness_DecodeFollowsTheOpcodeTable : decodeWord 0x800E = .ok (.shl 0 0) ∧
    (∀ row ∈ opcodeRows, (0x800F : Word) &&& row.2 ≠ row.1) := ⟨by decide, by simp [opcodeRows]⟩

theorem witness_NoTwoRowsMatchOneWord : ((0x00EE, 0xFFFF) : Word × Word) ∈ opcodeRows ∧
    (0x00EE : Word) &&& 0xFFFF = 0x00EE := by decide

/-- One word in each group's illegal part. -/
theorem witness_IllegalSpaceByGroup : (fieldOp 0x0001 = 0x0 ∧ (0x0001 : Word) ≠ 0x0000) ∧
    (fieldOp 0x500F = 0x5 ∧ fieldN 0x500F ≠ 0) ∧ (fieldOp 0x9001 = 0x9 ∧ fieldN 0x9001 ≠ 0) ∧
    (fieldOp 0x8008 = 0x8 ∧ 8 ≤ (fieldN 0x8008).val ∧ (fieldN 0x8008).val ≠ 0xE) ∧
    (fieldOp 0xE09F = 0xE ∧ fieldNN 0xE09F ≠ 0x9E ∧ fieldNN 0xE09F ≠ 0xA1) ∧
    (fieldOp 0xF066 = 0xF ∧ ∀ k ∈ [0x07#8, 0x0A#8, 0x15#8, 0x18#8, 0x1E#8, 0x29#8, 0x33#8, 0x55#8, 0x65#8],
      fieldNN 0xF066 ≠ k) := by decide

/-- At the last address a word can be fetched from. -/
theorem witness_StepRunsTheDecodedInstruction :
    let s := { start with pc := 0xFFE }
    s.pending = [] ∧ s.status = .running ∧ s.pc.toNat + 1 ≤ 0xFFF ∧
      decode [s.mem.read s.pc.toNat, s.mem.read (s.pc.toNat + 1)] = .ok (.nop, []) := by decide +kernel

theorem witness_FetchBeyondMemoryFaults :
    let s := { start with pc := 0xFFF }
    s.pending = [] ∧ s.status = .running ∧ 0xFFF < s.pc.toNat + 1 := by decide +kernel

theorem witness_IllegalWordFaults :
    let s := { start with pc := 0xFFE }.placeWord 0xFFFF
    s.pending = [] ∧ s.status = .running ∧ s.pc.toNat + 1 ≤ 0xFFF ∧
      (0xFFFF : Word) = wordOfBytes (s.mem.read s.pc.toNat) (s.mem.read (s.pc.toNat + 1)) ∧
      ∀ row ∈ opcodeRows, (0xFFFF : Word) &&& row.2 ≠ row.1 :=
  ⟨rfl, rfl, by decide, by decide +kernel, by simp [opcodeRows]⟩

/-- One for each of the three clauses, at the end of memory. -/
theorem witness_ByteOrder : ({ start with pc := 0xFFE } : State).fetch? = some 0x0000 ∧
    (start (i := 0xFFD)).i.toNat + 2 ≤ 0xFFF ∧
    ((15 : Reg) ≤ 15 ∧ (start (i := 0xFF0)).i.toNat + (15 : Reg).val ≤ 0xFFF) := by decide +kernel

theorem witness_FaultsArePrecise :
    let s := start.placeWord 0x00EE
    s.pending = [] ∧ s.status = .running ∧ (stepOf s).map (·.status) = some .halted := by decide +kernel

/-- Both clauses, for each cause, where the condition begins to hold and just before it. -/
theorem witness_InstructionsFaultExactlyAsTabled :
    Instr.ret.ownFault start = some (.stackUnderflow, 0) ∧
    Instr.ret.ownFault { start with sp := 1 } = none ∧
    (Instr.call 0x300).ownFault { start with sp := 16 } = some (.stackOverflow, 16) ∧
    (Instr.call 0x300).ownFault { start with sp := 15 } = none ∧
    (Instr.skp 0).ownFault (start 0x10) = some (.keyIndexOutOfRange, 0x10) ∧
    (Instr.sknp 0).ownFault (start 0x0F) = none ∧
    (Instr.ldB 0).ownFault (start (i := 0xFFE)) = some (.dataOutOfRange, 0x1000) ∧
    (Instr.ldB 0).ownFault (start (i := 0xFFD)) = none ∧
    (Instr.ldStore 15).ownFault (start (i := 0xFF1)) = some (.dataOutOfRange, 0x1000) ∧
    (Instr.ldLoad 15).ownFault (start (i := 0xFF0)) = none ∧
    (Instr.drw 0 1 15).ownFault (start (i := 0xFF2)) = some (.dataOutOfRange, 0x1000) ∧
    (Instr.drw 0 1 0).ownFault (start (i := 0xFFFF)) = none := by decide +kernel

/-- The three cases in which a step halts, and one in which it does not. -/
theorem witness_WhenAStepHalts :
    (({ start with pc := 0x1000 } : State).fetch? = none ∧
      (stepOf { start with pc := 0x1000 }).map (·.status) = some .halted) ∧
    ((start.placeWord 0xF000).fetch? = some 0xF000 ∧ decodeWord 0xF000 = .error (.illegal 0xF000) ∧
      (stepOf (start.placeWord 0xF000)).map (·.status) = some .halted) ∧
    ((start.placeWord 0x00EE).fetch? = some (encode .ret) ∧ Instr.ret.ownFault start ≠ none ∧
      (stepOf (start.placeWord 0x00EE)).map (·.status) = some .halted) ∧
    (stepOf (start.placeWord 0x00E0)).map (·.status) = some .running := by decide +kernel

/-- The clauses with a hypothesis of their own: RET from the highest slot, and keys 0 and 15. -/
theorem witness_PcAfterEachInstruction :
    (∃ t, exec .nop start = .next t ∧ Instr.nop.ownFault start = none) ∧
    (Instr.ret.ownFault { start with sp := 16 } = none ∧
      (15 : Fin 16).val + 1 = ({ start with sp := 16 } : State).sp.val) ∧
    ((Instr.skp 0).ownFault (start 15) = none ∧ (15 : Key).val = ((start 15).readV 0).toNat) ∧
    ((Instr.sknp 0).ownFault start = none ∧ (0 : Key).val = (start.readV 0).toNat) :=
  ⟨⟨_, rfl, rfl⟩, by decide +kernel⟩

/-- A next state, and each conditional clause on both sides of its condition: the slot of 2NNN, FX0A with a key
pressed and with none. -/
theorem witness_FrameRule : (∃ t, exec (.ldStore 15) (start (i := 0xFF0)) = .next t) ∧
    (Instr.call 0x300).writesSlot { start with sp := 15 } 15 = true ∧
    (Instr.call 0x300).writesSlot { start with sp := 15 } 14 = false ∧
    (∀ k, Instr.ret.writesSlot { start with sp := 16 } k = false) ∧
    (Instr.ldVxK 2).writesReg (start.setKey 15 true) 2 = true ∧
    (Instr.ldVxK 2).writesReg start 2 = false :=
  ⟨⟨_, rfl⟩, by decide +kernel⟩

/-- A jump to 0xFFF, and the farthest BNNN: the next fetch is beyond the memory. -/
theorem witness_NopAndJumps :
    (stepOf (start.placeWord 0x1FFF)).map (fun t => decide (0xFFE < t.pc.toNat)) = some true ∧
    (stepOf ((start 0xFF).placeWord 0xBFFF)).map (fun t => decide (0xFFE < t.pc.toNat)) = some true ∧
    ({ start with pc := 0xFFF } : State).status = .running ∧ start.pending = [] := by decide +kernel

theorem witness_CallPushesTheReturnAddress : ({ start with sp := 15 } : State).sp.val < 16 := by decide

/-- From the highest slot, to an address where the next fetch faults. -/
theorem witness_ReturnPopsTheTopSlot :
    let s := { start with sp := 16, stack := start.stack.set 15 0xFFF }
    (15 : Fin 16).val + 1 = s.sp.val ∧ 0xFFE < (s.stack[15]).toNat := by decide +kernel

theorem witness_CallThenReturn : ({ start with sp := 15 } : State).sp.val < 16 := by decide

/-- The clause for `x` other than VF, and the one for VF; the mask 0 of CXNN. -/
theorem witness_flag_clauses : (0 : Reg) ≠ VF ∧ (14 : Reg) ≠ VF ∧ (15 : Reg) = VF ∧ (0 : Byte) = 0 := by decide

theorem witness_StoreDecimalDigits : (start (i := 0xFFD)).i.toNat + 2 ≤ 0xFFF := by decide

theorem witness_StoreRegisterBlock : (start (i := 0xFF0)).i.toNat + (15 : Reg).val ≤ 0xFFF ∧
    (15 : Reg) ≤ 15 := by decide

theorem witness_LoadRegisterBlock : (start (i := 0xFFF)).i.toNat + (0 : Reg).val ≤ 0xFFF := by decide

theorem witness_StoreThenLoadRoundTrip :
    let s := start 1 2 3 4 0xFF0
    s.i.toNat + (15 : Reg).val ≤ 0xFFF ∧ ∃ t u : State, exec (.ldStore 15) s = .next t ∧
      u.mem = t.mem ∧ u.i = t.i ∧ u.readV 0 ≠ s.readV 0 :=
  ⟨by decide, _, { start (i := 0xFF0) with mem := _ }, rfl, rfl, rfl, by decide +kernel⟩

/-- FX33 covering both bytes, FX55 covering the low byte alone and, at the end of memory, the high byte alone; the
longest image, with the word astride its start. -/
theorem witness_StoreThenFetchSeesIt :
    (let s := start (i := 0x202); s.pc.toNat + 3 ≤ 0xFFF ∧ s.i.toNat + 2 ≤ 0xFFF) ∧
    (let s := start (i := 0x203); s.pc.toNat + 3 ≤ 0xFFF ∧ s.i.toNat + (0 : Reg).val ≤ 0xFFF) ∧
    (let s := { start (i := 0xFFE) with pc := 0xFFC };
      s.pc.toNat + 3 ≤ 0xFFF ∧ s.i.toNat + (0 : Reg).val ≤ 0xFFF ∧ s.pc.toNat + 2 = s.i.toNat) ∧
    (let s := { start with pc := 0x1FF }; s.status = .running ∧ s.pc.toNat + 1 ≤ 0xFFF) ∧
    (List.replicate 3584 (0xAB : Byte)).length ≤ 3584 :=
  ⟨by decide, by decide, by decide, by decide, by rw [List.length_replicate]⟩

/-- The bytes laid over the memory, and the ones beside them. -/
theorem test_overlaid : [0x1FF, 0x200, 0x201, 0x202].map (start.mem.overlaid 0x200 [7, 8]) = [0, 7, 8, 0] := by
  decide +kernel

theorem witness_CanonicalMemoriesAreEqual :
    let m := (State.reset.mem.write 0 1).write 0xFFF 2
    let n := ((State.reset.mem.write 0xFFF 2).write 0 7).write 0 1
    m.wf = true ∧ n.wf = true ∧ m.font = n.font ∧ m.read 0xFFF = n.read 0xFFF := by decide +kernel

/-- A sprite of no rows at an address beyond memory, and one that ends at the last byte. -/
theorem witness_DrawSprite : (0 : Fin 16) = 0 ∧ (start (i := 0xFFFF)).i.toNat = 0xFFFF ∧
    (start (i := 0xFF1)).i.toNat + (15 : Fin 16).val - 1 ≤ 0xFFF := by decide

/-- Fifteen full rows, wrapping in both axes. -/
theorem witness_SpriteBitsFallOnDifferentPixels : (List.replicate 15 (0xFF : Byte)).length ≤ 15 ∧
    ((31, 63) ∈ spritePixels 63 31 (List.replicate 15 0xFF)) ∧ ((0, 6) ∈ spritePixels 63 31 (List.replicate 15 0xFF)) ∧
    (spritePixels 63 31 (List.replicate 15 0xFF)).reverse.Perm (spritePixels 63 31 (List.replicate 15 0xFF)) :=
  ⟨by decide, by decide +kernel, by decide +kernel, List.reverse_perm _⟩

theorem witness_DrawingTwiceRestores : (0 : Reg) ≠ VF ∧ (14 : Reg) ≠ VF ∧
    (start (i := 0xFF1)).i.toNat + (15 : Fin 16).val ≤ 0x1000 := by decide

/-- The lowest and the highest key number. -/
theorem witness_KeySkips : (start.readV 0).toNat = (0 : Key).val ∧ ((start 15).readV 0).toNat = (15 : Key).val := by
  decide

/-- No key pressed; only the highest; the lowest among several. -/
theorem witness_KeyWait : (∀ k, start.readKey k = false) ∧
    ((start.setKey 15 true).readKey 15 = true ∧ ∀ j < (15 : Key), (start.setKey 15 true).readKey j = false) ∧
    (((start.setKey 15 true).setKey 0 true).readKey 0 = true ∧
      ∀ j < (0 : Key), ((start.setKey 15 true).setKey 0 true).readKey j = false) := by decide +kernel

theorem witness_NoInstructionReadsTheSoundTimer : ∃ t, exec (.ldStVx 2) start = .next t := ⟨_, rfl⟩

theorem witness_TimerTickCountsBothDown : start.status = .running ∧ haltedState.status = .halted := by decide

theorem witness_LoadCopiesTheImage : start.status = .running ∧
    (List.replicate 3584 (0xAB : Byte)).length ≤ 3584 := ⟨rfl, by rw [List.length_replicate]⟩

theorem witness_ContractViolationsAreRejected : start.status = .running ∧
    3584 < (List.replicate 3585 (0 : Byte)).length ∧ 15 < 16 :=
  ⟨rfl, by rw [List.length_replicate]; decide, by decide⟩

theorem witness_KeySetsItsSlot : start.status = .running := rfl

/-- Two different states with the same parameters. -/
theorem witness_ResetRestoresEverything : start 7 ≠ haltedState ∧ haltedState.mem.font = (start 7).mem.font ∧
    haltedState.draws = (start 7).draws ∧ haltedState.pending = (start 7).pending := by decide +kernel

theorem witness_HaltedAcceptsOnlyResetAndReads : haltedState.status = .halted ∧
    HostOp.timerTick ≠ .reset ∧ HostOp.timerTick ≠ .readDisplay ∧ HostOp.timerTick ≠ .readSound ∧
    HostOp.timerTick ≠ .readStatus := by decide

theorem witness_HaltedStaysUntilReset :
    let s := { haltedState with pending := [.step, .key 3 true, .readStatus] }
    s.status = .halted ∧ HostOp.reset ∉ s.pending := by decide

/-- Each of the three clauses. -/
theorem witness_StepReplies : haltedState.status = .halted ∧
    ((start.placeWord 0x00E0).status = .running ∧
      (stepOf (start.placeWord 0x00E0)).map (·.status) = some .running) ∧
    ((start.placeWord 0x00EE).status = .running ∧
      (stepOf (start.placeWord 0x00EE)).map (·.status) = some .halted) := by decide +kernel

theorem witness_PendingOperationsRunInOrder :
    ({ start with pending := [.load [1], .reset, .step] } : State).pending = .load [1] :: [.reset, .step] := rfl

/-- A RUNNING state with a cell listed and a full stack, about to overflow it. -/
theorem witness_EveryStepKeepsTheInvariant :
    let s := { start.placeWord 0x2300 with sp := 16, stack := Vector.replicate 16 0x1000 }
    s.Inv ∧ ∃ t, step s = .next t ∧ t.status = .halted := by
  refine ⟨⟨by decide +kernel, by decide +kernel, by decide +kernel, fun _ => rfl, fun h => ?_⟩, _, rfl, rfl⟩
  exact absurd h (by decide +kernel)

/-- A HALTED state that meets the invariant. -/
theorem witness_Inv_halted : haltedState.Inv ∧ haltedState.status = .halted := by
  refine ⟨⟨by decide +kernel, by decide +kernel, by decide +kernel, fun h => ?_, fun _ => ⟨rfl, ?_, .ret, ?_, ?_⟩⟩, rfl⟩
  · exact absurd h (by decide +kernel)
  · decide +kernel
  · decide +kernel
  · decide +kernel

/-- Two states that differ in a stale slot only. -/
theorem witness_StaleSlotsAreUnobservable :
    let s := { start with sp := 1 }
    let t := { s with stack := start.stack.set 1 0x300 }
    s.SameButStale t ∧ s ≠ t := ⟨⟨rfl, by decide +kernel⟩, by decide +kernel⟩

/-- The bounds of the clauses: an even `pc` run to 0x1000, an odd one to 0xFFF, and a `pc` already at the end; the
memory read as zero from each of them on. -/
theorem witness_UnloadedMemoryRunsAsNops :
    (let s := { start with pc := 0xFFC };
      s.pending = [] ∧ s.status = .running ∧ (∀ a < 0x1000, s.pc.toNat ≤ a → s.mem.read a = 0) ∧
      s.pc.toNat + 2 * 2 = 0x1000) ∧
    (let s := { start with pc := 0xFFB };
      (∀ a < 0x1000, s.pc.toNat ≤ a → s.mem.read a = 0) ∧ s.pc.toNat + 2 * 2 = 0xFFF) ∧
    (let s := { start with pc := 0x1000 };
      (∀ a < 0x1000, s.pc.toNat ≤ a → s.mem.read a = 0) ∧ s.pc.toNat + 2 * 0 = 0x1000) ∧
    (80 : Nat) ≤ 80 := by
  refine ⟨⟨rfl, rfl, ?_, rfl⟩, ⟨?_, rfl⟩, ⟨?_, rfl⟩, Nat.le_refl _⟩ <;>
  · intro a _ (h : _ ≤ a)
    have h80 : ¬ a < 80 := by have : 80 ≤ a := Nat.le_trans (by decide) h; omega
    exact dif_neg h80

end Sys2Proof.Tests
end

section
/-! PROOFS. The host interface (40_cycle_and_interface.md): the caller contract of LOAD and KEY, and the order
of the bits READ_DISPLAY returns. -/

namespace Sys2Proof.Machine

/-! ## The caller contract (R122) -/

theorem imageFits_eq_false {data : List Byte} (h : 3584 < data.length) : imageFits data = false :=
  decide_eq_false (by omega)

theorem perform_load_tooLarge {s : State} {data : List Byte} (hs : s.status = .running)
    (h : imageFits data = false) :
    perform (.load data) s = .next (s, .rejected .imageTooLarge) := by
  simp [perform, hs, h]

theorem perform_key_invalid {s : State} {index : Nat} (pressed : Bool) (hs : s.status = .running)
    (h : ¬ index < 16) :
    perform (.key index pressed) s = .next (s, .rejected .keyIndexInvalid) := by
  simp [perform, hs, h]

/-! ## The row-major display (R132) -/

theorem perform_readDisplay (s : State) :
    perform .readDisplay s = .next (s, .display s.display.rowMajor) := rfl

/-- The index `y * 64 + x` determines its row, since a column is below 64. -/
theorem wrapRow_rowMajorIndex (y : Fin 32) (x : Fin 64) : wrapRow ((y.val * 64 + x.val) / 64) = y := by
  apply Fin.ext
  change (y.val * 64 + x.val) / 64 % 32 = y.val
  omega

/-- The index `y * 64 + x` determines its column: 64 divides what the row adds. -/
theorem wrapCol_rowMajorIndex (y : Fin 32) (x : Fin 64) : wrapCol (y.val * 64 + x.val) = x := by
  apply Fin.ext
  change (y.val * 64 + x.val) % 64 = x.val
  omega

theorem Display.rowMajor_getElem? (d : Display) (y : Fin 32) (x : Fin 64) :
    d.rowMajor[y.val * 64 + x.val]? = some (d.pixel y x) := by
  have hlt : y.val * 64 + x.val < 2048 := by omega
  rw [Vector.getElem?_eq_getElem hlt, Display.rowMajor, Vector.getElem_ofFn, wrapRow_rowMajorIndex,
    wrapCol_rowMajorIndex]

/-- Settles O47: each broken contract takes the rejecting branch of `perform`, which answers the state it was
given. -/
theorem contractViolationsAreRejected : Obligations.ContractViolationsAreRejected := fun _ hs =>
  ⟨fun _ hlen => perform_load_tooLarge hs (imageFits_eq_false hlen),
    fun _ pressed hindex => perform_key_invalid pressed hs (by omega)⟩

/-- Settles O49, by the row and the column that the index `y * 64 + x` determines. -/
theorem readDisplayIsRowMajor : Obligations.ReadDisplayIsRowMajor := fun s =>
  ⟨s.display.rowMajor, perform_readDisplay s, s.display.rowMajor_getElem?⟩

end Sys2Proof.Machine
end

section
/-! PROOFS. Control flow (41_control_flow.md): the register skips R155 to R158. -/

namespace Sys2Proof.Machine

/-- The fetch's advance and the skip's together are one write of `pc`, by the condition that the skip tests. -/
theorem State.advance_skipIf (s : State) {c : Bool} {p : Prop} [Decidable p] (h : c = true ↔ p) :
    s.advance.skipIf c = { s with pc := if p then s.pc + 4 else s.pc + 2 } := by
  simp only [State.skipIf_eq, State.advance_pc, advance_twice, h]
  rfl

theorem exec_seImm (s : State) (x : Reg) (nn : Byte) : exec (.seImm x nn) s =
    .next { s with pc := if s.readV x = nn then s.pc + 4 else s.pc + 2 } :=
  congrArg _ (s.advance_skipIf beq_iff_eq)

theorem exec_sneImm (s : State) (x : Reg) (nn : Byte) : exec (.sneImm x nn) s =
    .next { s with pc := if s.readV x ≠ nn then s.pc + 4 else s.pc + 2 } :=
  congrArg _ (s.advance_skipIf bne_iff_ne)

theorem exec_seReg (s : State) (x y : Reg) : exec (.seReg x y) s =
    .next { s with pc := if s.readV x = s.readV y then s.pc + 4 else s.pc + 2 } :=
  congrArg _ (s.advance_skipIf beq_iff_eq)

theorem exec_sneReg (s : State) (x y : Reg) : exec (.sneReg x y) s =
    .next { s with pc := if s.readV x ≠ s.readV y then s.pc + 4 else s.pc + 2 } :=
  congrArg _ (s.advance_skipIf bne_iff_ne)

/-- Settles O18, by the outcome of each skip; with one register twice the condition is `V[x] = V[x]`. -/
theorem registerSkips : Obligations.RegisterSkips := fun s x y nn =>
  ⟨exec_seImm s x nn, exec_sneImm s x nn, exec_seReg s x y, exec_sneReg s x y,
    (exec_seReg s x x).trans (by rw [if_pos rfl]),
    (exec_sneReg s x x).trans (by rw [if_neg (not_not_intro rfl)])⟩

end Sys2Proof.Machine
end

section
/-! PROOFS. Registers and the ALU (42_alu.md): the loads and the immediate add, R201 to R203. -/

namespace Sys2Proof.Machine

/-! ## One register write after the fetch's advance -/

theorem State.advance_writeV (s : State) (x : Reg) (b : Byte) :
    s.advance.writeV x b = { s with pc := s.pc + 2, v := (s.advance.writeV x b).v } := rfl

theorem State.advance_writeV_readV (s : State) (x r : Reg) (b : Byte) :
    (s.advance.writeV x b).readV r = if r = x then b else s.readV r := by
  rw [State.writeV_readV, State.advance_readV]

/-! ## The register each instruction writes, and its value -/

theorem exec_ldImm (s : State) (x : Reg) (nn : Byte) :
    exec (.ldImm x nn) s = .next (s.advance.writeV x nn) := rfl

theorem exec_addImm (s : State) (x : Reg) (nn : Byte) :
    exec (.addImm x nn) s = .next (s.advance.writeV x (addMod256 (s.readV x) nn)) := rfl

theorem exec_ldReg (s : State) (x y : Reg) :
    exec (.ldReg x y) s = .next (s.advance.writeV x (s.readV y)) := rfl

/-- Settles O22: each of the three is one register write after the advance, and the frame is that of the
write; the sum is taken modulo 256. -/
theorem loadAndAddImmediate : Obligations.LoadAndAddImmediate := by
  intro s x y nn
  refine ⟨⟨_, exec_ldImm s x nn, s.advance_writeV x _, fun r => s.advance_writeV_readV x r _⟩,
    ⟨_, exec_addImm s x nn, s.advance_writeV x _, ?sum, ?others⟩,
    ⟨_, exec_ldReg s x y, s.advance_writeV x _, fun r => s.advance_writeV_readV x r _⟩⟩
  case sum => rw [State.writeV_readV_self, toNat_addMod256]
  case others =>
    intro r hr
    rw [State.advance_writeV_readV, if_neg hr]

end Sys2Proof.Machine
end

section
/-! PROOFS. The index register (43_index_memory.md): ANNN and FX29, R250 and R252. -/

namespace Sys2Proof.Machine

/-- A write of I after the fetch's advance changes I and `pc` alone. -/
theorem State.advance_setI (s : State) (a : Word) :
    s.advance.setI a = { s with pc := s.pc + 2, i := (s.advance.setI a).i } := rfl

/-! ## The value each instruction writes to I -/

theorem exec_ldI (s : State) (nnn : Addr12) :
    exec (.ldI nnn) s = .next (s.advance.setI (zext16 nnn)) := rfl

theorem exec_ldF (s : State) (x : Reg) :
    exec (.ldF x) s = .next (s.advance.setI (glyphAddr (s.readV x))) := rfl

/-- Settles O28: each is one write of I after the advance; widening `nnn` keeps its value, and `V[x] * 5` is at
most 1275, so 16 bits hold it. -/
theorem loadIndex : Obligations.LoadIndex := by
  intro s x nnn
  refine ⟨⟨_, exec_ldI s nnn, s.advance_setI _, ?address⟩, ⟨_, exec_ldF s x, s.advance_setI _, ?glyph⟩⟩
  case address => rw [State.setI_i, toNat_zext16]
  case glyph => rw [State.setI_i, toNat_glyphAddr]

end Sys2Proof.Machine
end

section
/-! PROOFS. The display (44_display.md): 00E0, R302. -/

namespace Sys2Proof.Machine

/-- A write of the display after the fetch's advance changes the display and `pc` alone. -/
theorem State.advance_setDisplay (s : State) (d : Display) :
    s.advance.setDisplay d = { s with pc := s.pc + 2, display := (s.advance.setDisplay d).display } := rfl

theorem exec_cls (s : State) : exec .cls s = .next (s.advance.setDisplay Display.clear) := rfl

/-- Settles O36: the instruction is one write of the clear display after the advance, and the frame is that of
the write. -/
theorem clearTheDisplay : Obligations.ClearTheDisplay := by
  intro s
  refine ⟨_, exec_cls s, s.advance_setDisplay _, ?allOff⟩
  case allOff =>
    intro y x
    rw [State.setDisplay_display, Display.clear_pixel]

end Sys2Proof.Machine
end

section
/-! PROOFS. Keys and timers (45_keys_timers.md): the key wait FX0A, R332, and the delay timer, R333 and R334. -/

namespace Sys2Proof.Machine

/-! ## The key wait (R332) -/

/-- The busy-rewind undoes the fetch's advance, so the state is as before the fetch. -/
theorem State.advance_rewind (s : State) : s.advance.setPc (s.advance.pc - 2) = s := by
  have hpc : s.advance.pc - 2 = s.pc := BitVec.add_sub_cancel s.pc 2
  rw [hpc]
  rfl

/-- A pressed key below which none is pressed is the key FX0A takes: it and the key taken bound each other. -/
theorem lowestPressed_eq_some {s : State} {k : Key} (hk : s.readKey k = true)
    (hlow : ∀ j < k, s.readKey j = false) : s.lowestPressed = some k := by
  cases h : s.lowestPressed with
  | none => exact absurd hk (Bool.eq_false_iff.mp ((lowestPressed_none_iff s).mp h k))
  | some j =>
    obtain ⟨hj, hjlow⟩ := lowestPressed_some h
    have hkj : ¬ k < j := fun hlt => Bool.eq_false_iff.mp (hjlow k hlt) hk
    have hjk : ¬ j < k := fun hlt => Bool.eq_false_iff.mp (hlow j hlt) hj
    rw [le_antisymm (not_lt.mp hkj) (not_lt.mp hjk)]

theorem exec_ldVxK_waits {s : State} (x : Reg) (h : s.lowestPressed = none) :
    exec (.ldVxK x) s = .next s := by
  have ht : s.advance.lowestPressed = none := h
  simp only [exec, execLdVxK, ht, State.advance_rewind]

theorem exec_ldVxK_takes {s : State} (x : Reg) {k : Key} (h : s.lowestPressed = some k) :
    exec (.ldVxK x) s = .next (s.advance.writeV x (keyByte k)) := by
  have ht : s.advance.lowestPressed = some k := h
  simp only [exec, execLdVxK, ht]

/-- Settles O41, by the two answers of the key scan: with none the rewind restores the state, and with the lowest
pressed key the instruction is one register write after the advance. -/
theorem keyWait : Obligations.KeyWait := by
  intro s x
  refine ⟨fun hnone => exec_ldVxK_waits x ((lowestPressed_none_iff s).mpr hnone), fun k hk hlow => ?_⟩
  refine ⟨_, exec_ldVxK_takes x (lowestPressed_eq_some hk hlow), s.advance_writeV x _, ?key, ?others⟩
  case key => rw [State.writeV_readV_self, toNat_keyByte]
  case others =>
    intro r hr
    rw [State.advance_writeV_readV, if_neg hr]

/-! ## The delay timer (R333, R334) -/

theorem exec_ldVxDt (s : State) (x : Reg) :
    exec (.ldVxDt x) s = .next (s.advance.writeV x s.dt) := rfl

theorem exec_ldDtVx (s : State) (x : Reg) :
    exec (.ldDtVx x) s = .next { s with pc := s.pc + 2, dt := s.readV x } := rfl

/-- Settles O42: the read is one register write after the advance, with that write's frame, and the write of DT
takes the register as it was before. -/
theorem delayTimerAccess : Obligations.DelayTimerAccess := fun s x =>
  ⟨⟨_, exec_ldVxDt s x, s.advance_writeV x _, fun r => s.advance_writeV_readV x r _⟩, exec_ldDtVx s x⟩

end Sys2Proof.Machine
end

section
/-! PROOFS. Encoding (30_encoding.md): the decoder and the encoder undo each other, and the opcode table says
which words decode. -/

namespace Sys2Proof

/-! ## Decoding an encoded instruction -/

/-- The decoder finds each instruction again from the fields that its format gave the word. -/
theorem decodeWord?_encode (i : Instr) : decodeWord? (encode i) = some i := by
  cases i
  case nop | cls | ret => rfl
  all_goals
    simp only [encode, decodeWord?, decodeGroup8, decodeGroupE, decodeGroupF, decodeLowNibbleZero,
      fieldOp_formatA, fieldNNN_formatA, fieldOp_formatXK, fieldX_formatXK, fieldNN_formatXK,
      fieldOp_formatXYN, fieldX_formatXYN, fieldY_formatXYN, fieldN_formatXYN]
    rfl

theorem decodeWord_encode (i : Instr) : decodeWord (encode i) = .ok i :=
  decodeWord_ok_iff.mpr (decodeWord?_encode i)

theorem decode_encodeBytes (i : Instr) (rest : List Byte) :
    decode (encodeBytes i ++ rest) = .ok (i, rest) := by
  simp only [encodeBytes, List.cons_append, List.nil_append, decode_bytes, decodeWord_encode]
  rfl

/-- Settles O1: the fields that a format lays out are read back, on the word and on its two bytes. -/
theorem decodeEncodeRoundTrip : Obligations.DecodeEncodeRoundTrip := fun i _ =>
  ⟨decodeWord_encode i, decode_encodeBytes i⟩

/-! ## Encoding a decoded word -/

theorem formatA_of_fields {w : Word} {op : BitVec 4} (hop : fieldOp w = op) :
    formatA op (fieldNNN w) = w := by
  apply BitVec.eq_of_toNat_eq
  rw [toNat_formatA, ← hop, toNat_fieldOp, toNat_fieldNNN]
  omega

theorem formatXK_of_fields {w : Word} {op : BitVec 4} {k : Byte} (hop : fieldOp w = op)
    (hk : fieldNN w = k) : formatXK op (fieldX w) k = w := by
  apply BitVec.eq_of_toNat_eq
  rw [toNat_formatXK, ← hop, ← hk, toNat_fieldOp, val_fieldX, toNat_fieldNN]
  omega

theorem formatXYN_of_fields {w : Word} {op n : BitVec 4} (hop : fieldOp w = op)
    (hn : fieldN w = n.toFin) : formatXYN op (fieldX w) (fieldY w) n = w := by
  have hn : n.toNat = w.toNat % 16 := (congrArg Fin.val hn).symm.trans (val_fieldN w)
  apply BitVec.eq_of_toNat_eq
  rw [toNat_formatXYN, ← hop, hn, toNat_fieldOp, val_fieldX, val_fieldY]
  omega

theorem encode_of_decodeGroup0 {w : Word} {i : Instr} (h : decodeGroup0 w = some i) : encode i = w := by
  unfold decodeGroup0 at h
  split_ifs at h with hw hw hw <;> cases h <;> exact hw.symm

theorem encode_of_decodeGroup8 {w : Word} {i : Instr} (hop : fieldOp w = 0x8)
    (h : decodeGroup8 w = some i) : encode i = w := by
  unfold decodeGroup8 at h
  split at h <;> cases h <;> exact formatXYN_of_fields hop ‹_›

theorem encode_of_decodeGroupE {w : Word} {i : Instr} (hop : fieldOp w = 0xE)
    (h : decodeGroupE w = some i) : encode i = w := by
  unfold decodeGroupE at h
  split_ifs at h with hk hk <;> cases h <;> exact formatXK_of_fields hop hk

theorem encode_of_decodeGroupF {w : Word} {i : Instr} (hop : fieldOp w = 0xF)
    (h : decodeGroupF w = some i) : encode i = w := by
  unfold decodeGroupF at h
  split_ifs at h with hk hk hk hk hk hk hk hk hk <;> cases h <;> exact formatXK_of_fields hop hk

/-- Groups 5 and 9 decode one instruction each, when the low nibble is 0. -/
theorem decodeLowNibbleZero_eq_some_iff {w : Word} {i j : Instr} :
    decodeLowNibbleZero w j = some i ↔ fieldN w = 0 ∧ j = i := by
  simp [decodeLowNibbleZero]

/-- Within a group the word's remaining fields are the operands, so the format lays out the same word. -/
theorem encode_of_decodeWord? {w : Word} {i : Instr} (h : decodeWord? w = some i) : encode i = w := by
  unfold decodeWord? at h
  split at h <;> rename_i hop
  case h_1 => exact encode_of_decodeGroup0 h
  case h_6 | h_10 =>
    obtain ⟨hn, rfl⟩ := decodeLowNibbleZero_eq_some_iff.mp h
    exact formatXYN_of_fields hop hn
  case h_9 => exact encode_of_decodeGroup8 hop h
  case h_15 => exact encode_of_decodeGroupE hop h
  case h_16 => exact encode_of_decodeGroupF hop h
  case h_2 | h_3 | h_11 | h_12 => cases h; exact formatA_of_fields hop
  case h_14 => cases h; exact formatXYN_of_fields hop rfl
  case h_17 => cases h
  all_goals cases h; exact formatXK_of_fields hop rfl

theorem decodeWord_ok_iff_encode {w : Word} {i : Instr} : decodeWord w = .ok i ↔ encode i = w :=
  ⟨fun h => encode_of_decodeWord? (decodeWord_ok_iff.mp h), fun h => h ▸ decodeWord_encode i⟩

/-- Settles O2: within each group the operands are the word's remaining fields. -/
theorem encodeDecodeRoundTrip : Obligations.EncodeDecodeRoundTrip := fun _ i h =>
  ⟨decodeWord_ok_iff_encode.mp h, wellFormed_all i⟩

/-! ## The illegal words, group by group (R95, R96, R97) -/

theorem ite_some_eq_none_iff {α : Type} {p : Prop} [Decidable p] {a : α} {o : Option α} :
    (if p then some a else o) = none ↔ ¬ p ∧ o = none := by
  split <;> simp_all

theorem decodeGroup0_eq_none_iff {w : Word} :
    decodeGroup0 w = none ↔ w ≠ 0x0000 ∧ w ≠ 0x00E0 ∧ w ≠ 0x00EE := by
  simp [decodeGroup0, ite_some_eq_none_iff]

theorem decodeGroup8_eq_none_iff {w : Word} :
    decodeGroup8 w = none ↔ 8 ≤ (fieldN w).val ∧ (fieldN w).val ≠ 0xE := by
  unfold decodeGroup8
  generalize fieldN w = n
  fin_cases n <;> simp

theorem decodeLowNibbleZero_eq_none_iff {w : Word} {i : Instr} :
    decodeLowNibbleZero w i = none ↔ fieldN w ≠ 0 := by
  simp [decodeLowNibbleZero]

theorem decodeGroupE_eq_none_iff {w : Word} :
    decodeGroupE w = none ↔ fieldNN w ≠ 0x9E ∧ fieldNN w ≠ 0xA1 := by
  simp [decodeGroupE, ite_some_eq_none_iff]

theorem decodeGroupF_eq_none_iff {w : Word} :
    decodeGroupF w = none ↔
      ∀ k ∈ [0x07#8, 0x0A#8, 0x15#8, 0x18#8, 0x1E#8, 0x29#8, 0x33#8, 0x55#8, 0x65#8], fieldNN w ≠ k := by
  simp [decodeGroupF, ite_some_eq_none_iff]

theorem decodeWord_illegal_iff {w : Word} : decodeWord w = .error (.illegal w) ↔ decodeWord? w = none := by
  simp [decodeWord_error_iff]

/-- Settles O5: `op` picks the group, and each group rejects what its own bits leave out. -/
theorem illegalSpaceByGroup : Obligations.IllegalSpaceByGroup := by
  intro w
  rw [decodeWord_illegal_iff, ← decodeGroup0_eq_none_iff, ← decodeGroup8_eq_none_iff,
    ← decodeGroupE_eq_none_iff, ← decodeGroupF_eq_none_iff]
  unfold decodeWord?
  generalize fieldOp w = op
  obtain ⟨v⟩ := op
  fin_cases v <;> simp [decodeLowNibbleZero_eq_none_iff]

/-! ## The opcode table (R94) -/

/-- Every instruction's word lies in its own row: the family of Laws/PerInstr.lean, put together. -/
theorem encode_and_rowMask : ∀ i : Instr, encode i &&& rowMask i = rowMatch i
  | .nop => Laws.EncodesItsRow.nop
  | .cls => Laws.EncodesItsRow.cls
  | .ret => Laws.EncodesItsRow.ret
  | .jp a => Laws.EncodesItsRow.jp a
  | .call a => Laws.EncodesItsRow.call a
  | .seImm x k => Laws.EncodesItsRow.seImm x k
  | .sneImm x k => Laws.EncodesItsRow.sneImm x k
  | .seReg x y => Laws.EncodesItsRow.seReg x y
  | .ldImm x k => Laws.EncodesItsRow.ldImm x k
  | .addImm x k => Laws.EncodesItsRow.addImm x k
  | .ldReg x y => Laws.EncodesItsRow.ldReg x y
  | .or x y => Laws.EncodesItsRow.or x y
  | .and x y => Laws.EncodesItsRow.and x y
  | .xor x y => Laws.EncodesItsRow.xor x y
  | .addReg x y => Laws.EncodesItsRow.addReg x y
  | .sub x y => Laws.EncodesItsRow.sub x y
  | .shr x y => Laws.EncodesItsRow.shr x y
  | .subn x y => Laws.EncodesItsRow.subn x y
  | .shl x y => Laws.EncodesItsRow.shl x y
  | .sneReg x y => Laws.EncodesItsRow.sneReg x y
  | .ldI a => Laws.EncodesItsRow.ldI a
  | .jpV0 a => Laws.EncodesItsRow.jpV0 a
  | .rnd x k => Laws.EncodesItsRow.rnd x k
  | .drw x y n => Laws.EncodesItsRow.drw x y n
  | .skp x => Laws.EncodesItsRow.skp x
  | .sknp x => Laws.EncodesItsRow.sknp x
  | .ldVxDt x => Laws.EncodesItsRow.ldVxDt x
  | .ldVxK x => Laws.EncodesItsRow.ldVxK x
  | .ldDtVx x => Laws.EncodesItsRow.ldDtVx x
  | .ldStVx x => Laws.EncodesItsRow.ldStVx x
  | .addI x => Laws.EncodesItsRow.addI x
  | .ldF x => Laws.EncodesItsRow.ldF x
  | .ldB x => Laws.EncodesItsRow.ldB x
  | .ldStore x => Laws.EncodesItsRow.ldStore x
  | .ldLoad x => Laws.EncodesItsRow.ldLoad x

theorem row_mem_opcodeRows (i : Instr) : (rowMatch i, rowMask i) ∈ opcodeRows := by
  cases i <;> simp only [rowMatch, rowMask] <;> decide

/-- The bits that the rows of a group fix: all of them in group 0, else `op` and what tells its rows apart. -/
def groupMask (op : BitVec 4) : Word :=
  if op = 0x0 then 0xFFFF
  else if op = 0x5 ∨ op = 0x8 ∨ op = 0x9 then 0xF00F
  else if op = 0xE ∨ op = 0xF then 0xF0FF
  else 0xF000

theorem mask_eq_groupMask : ∀ row ∈ opcodeRows, row.2 = groupMask (fieldOp row.1) := by
  simp [opcodeRows, groupMask, fieldOp]

/-- The match words of the groups that reject some words. -/
theorem match_of_group : ∀ row ∈ opcodeRows,
    (fieldOp row.1 = 0x0 → row.1 = 0x0000 ∨ row.1 = 0x00E0 ∨ row.1 = 0x00EE) ∧
    (fieldOp row.1 = 0x5 ∨ fieldOp row.1 = 0x9 → fieldN row.1 = 0) ∧
    (fieldOp row.1 = 0x8 → (fieldN row.1).val < 8 ∨ (fieldN row.1).val = 0xE) ∧
    (fieldOp row.1 = 0xE → fieldNN row.1 = 0x9E ∨ fieldNN row.1 = 0xA1) ∧
    (fieldOp row.1 = 0xF →
      fieldNN row.1 ∈ [0x07#8, 0x0A#8, 0x15#8, 0x18#8, 0x1E#8, 0x29#8, 0x33#8, 0x55#8, 0x65#8]) := by
  decide +kernel

theorem fieldOp_and_groupMask (w : Word) (op : BitVec 4) : fieldOp (w &&& groupMask op) = fieldOp w := by
  have hand : fieldOp (w &&& groupMask op) = fieldOp w &&& fieldOp (groupMask op) := BitVec.extractLsb'_and
  have hop : fieldOp (groupMask op) = 0xF#4 := by
    unfold groupMask
    split_ifs <;> rfl
  rw [hand, hop, Laws.nibble_and_ones]

theorem fieldN_and_mask (w : Word) : fieldN (w &&& 0xF00F) = fieldN w := by
  have hand : (w &&& 0xF00F).extractLsb' 0 4 = w.extractLsb' 0 4 &&& 0xF#4 := BitVec.extractLsb'_and
  rw [fieldN, fieldN, hand, Laws.nibble_and_ones]

theorem fieldNN_and_mask (w : Word) : fieldNN (w &&& 0xF0FF) = fieldNN w := by
  have hand : fieldNN (w &&& 0xF0FF) = fieldNN w &&& 0xFF#8 := BitVec.extractLsb'_and
  exact hand.trans BitVec.and_allOnes

/-- The one row that a word can lie in: the mask of the word's group, and the word under it. -/
theorem and_groupMask_of_row {w : Word} {row : Word × Word} (hrow : row ∈ opcodeRows)
    (h : w &&& row.2 = row.1) : row = (w &&& groupMask (fieldOp w), groupMask (fieldOp w)) := by
  have hmask := mask_eq_groupMask row hrow
  have hop : fieldOp row.1 = fieldOp w := by rw [← h, hmask, fieldOp_and_groupMask]
  rw [hop] at hmask
  exact Prod.ext (by rw [← h, hmask]) hmask

/-- A word of a row is no illegal word: the row fixes the bits by which its group decides. -/
theorem decodeWord?_ne_none_of_row {w : Word} {row : Word × Word} (hrow : row ∈ opcodeRows)
    (h : w &&& row.2 = row.1) : decodeWord? w ≠ none := by
  obtain rfl := and_groupMask_of_row hrow h
  have hgroup := match_of_group _ hrow
  simp only [fieldOp_and_groupMask] at hgroup
  obtain ⟨g0, g59, g8, gE, gF⟩ := hgroup
  rw [← decodeWord_illegal_iff.ne, Ne, illegalSpaceByGroup w]
  rintro (⟨hop, h0, hE0, hEE⟩ | ⟨hop, hn⟩ | ⟨hop, hn⟩ | ⟨hop, h9E, hA1⟩ | ⟨hop, hnn⟩)
  · have hw := g0 hop
    rw [hop, show w &&& groupMask 0 = w from BitVec.and_allOnes] at hw
    tauto
  · have hmask : groupMask (fieldOp w) = 0xF00F := by rcases hop with hop | hop <;> rw [hop] <;> rfl
    have := g59 hop
    rw [hmask, fieldN_and_mask] at this
    exact hn this
  · have := g8 hop
    rw [hop, show groupMask 8 = 0xF00F from rfl, fieldN_and_mask] at this
    omega
  · have := gE hop
    rw [hop, show groupMask 0xE = 0xF0FF from rfl, fieldNN_and_mask] at this
    tauto
  · have := gF hop
    rw [hop, show groupMask 0xF = 0xF0FF from rfl, fieldNN_and_mask] at this
    exact hnn _ this rfl

/-- Settles O3: what decodes is its instruction's encoding, which lies in the instruction's row; and a word of a
row decodes, since the row fixes what its group tests. -/
theorem decodeFollowsTheOpcodeTable : Obligations.DecodeFollowsTheOpcodeTable := by
  intro w
  have hown : ∀ i, decodeWord w = .ok i → w &&& rowMask i = rowMatch i := fun i h =>
    decodeWord_ok_iff_encode.mp h ▸ encode_and_rowMask i
  refine ⟨fun i h => ⟨hown i h, row_mem_opcodeRows i⟩, ?illegal⟩
  case illegal =>
    constructor
    · exact fun h row hrow hw => decodeWord?_ne_none_of_row hrow hw (decodeWord_illegal_iff.mp h)
    · intro h
      rw [decodeWord_illegal_iff, Option.eq_none_iff_forall_ne_some]
      exact fun i hi => h _ (row_mem_opcodeRows i) (hown i (decodeWord_ok_iff.mpr hi))

/-- Settles O4: the word's group has one mask, so a row it lies in is that mask with the word under it. -/
theorem noTwoRowsMatchOneWord : Obligations.NoTwoRowsMatchOneWord := fun _ _ hp _ hq hwp hwq =>
  (and_groupMask_of_row hp hwp).trans (and_groupMask_of_row hq hwq).symm

/-- Settles O6, by evaluating the decoder. -/
theorem writtenWordsDecode : Obligations.WrittenWordsDecode := by
  unfold Obligations.WrittenWordsDecode
  decide

end Sys2Proof
end

section
/-! PROOFS. The two outcomes of an instruction: the fault that 60_exceptions.md R370 gives it at a state, or the
state that it completes in; what that state keeps (10_state.md R39), and where its `pc` stands
(40_cycle_and_interface.md R127). -/

namespace Sys2Proof

open Machine

/-! ## The state an instruction completes in -/

/-- The key that V[x] names is in the wanted position. -/
def Machine.State.keyStands (s : State) (wanted : Bool) (x : Reg) : Bool :=
  (keyOperand (s.readV x)).any fun k => s.readKey k == wanted

/-- FX0A: with a key pressed V[x] gets the lowest one and `pc` moves on; with none the state waits. -/
def Machine.State.keyTaken (s : State) (x : Reg) : State := { s with
  v := s.lowestPressed.elim s.v fun k => s.v.set x (keyByte k)
  pc := s.lowestPressed.elim s.pc fun _ => s.pc + 2 }

/-- The state after `i` when `i` does not fault at `s` (`exec_completes`). On a full stack 2NNN faults, and on an
empty one 00EE, so what stands here for them then is never used. -/
def Instr.completed (i : Instr) (s : State) : State :=
  match i with
  | .nop => s.advance
  | .cls => s.advance.setDisplay Display.clear
  | .ret => { s with
      pc := s.stack[s.sp.val - 1]'(by have := s.sp.isLt; omega)
      sp := ⟨s.sp.val - 1, by omega⟩ }
  | .jp nnn => s.setPc (zext16 nnn)
  | .call nnn => { s with
      pc := zext16 nnn
      stack := if h : s.sp.val < 16 then s.stack.set s.sp.val (s.pc + 2) else s.stack
      sp := ⟨min (s.sp.val + 1) 16, by omega⟩ }
  | .seImm x nn => s.setPc (if s.readV x = nn then s.pc + 4 else s.pc + 2)
  | .sneImm x nn => s.setPc (if s.readV x ≠ nn then s.pc + 4 else s.pc + 2)
  | .seReg x y => s.setPc (if s.readV x = s.readV y then s.pc + 4 else s.pc + 2)
  | .sneReg x y => s.setPc (if s.readV x ≠ s.readV y then s.pc + 4 else s.pc + 2)
  | .ldImm x nn => s.advance.writeV x nn
  | .addImm x nn => s.advance.writeV x (addMod256 (s.readV x) nn)
  | .ldReg x y => s.advance.writeV x (s.readV y)
  | .or x y => s.advance.writeV x (s.readV x ||| s.readV y)
  | .and x y => s.advance.writeV x (s.readV x &&& s.readV y)
  | .xor x y => s.advance.writeV x (s.readV x ^^^ s.readV y)
  | .addReg x y =>
    s.advance.writeResultThenFlag x (addMod256 (s.readV x) (s.readV y)) (carryFlag (s.readV x) (s.readV y))
  | .sub x y =>
    s.advance.writeResultThenFlag x (subMod256 (s.readV x) (s.readV y)) (notBorrowFlag (s.readV x) (s.readV y))
  | .subn x y =>
    s.advance.writeResultThenFlag x (subMod256 (s.readV y) (s.readV x)) (notBorrowFlag (s.readV y) (s.readV x))
  | .shr x _ =>
    let t := s.advance.writeV VF (droppedLowBit (s.readV x))
    t.writeV x (shiftRight1 (t.readV x))
  | .shl x _ =>
    let t := s.advance.writeV VF (droppedHighBit (s.readV x))
    t.writeV x (shiftLeft1 (t.readV x))
  | .ldI nnn => s.advance.setI (zext16 nnn)
  | .jpV0 nnn => s.setPc (offsetTarget (s.readV 0) nnn)
  | .rnd x nn => s.advance.consumeDraw.writeV x (maskedDraw (Config.rnd s.draws) nn)
  | .drw x y n => (s.drawSprite x y n).advance
  | .skp x => s.setPc (if s.keyStands true x then s.pc + 4 else s.pc + 2)
  | .sknp x => s.setPc (if s.keyStands false x then s.pc + 4 else s.pc + 2)
  | .ldVxDt x => s.advance.writeV x s.dt
  | .ldVxK x => s.keyTaken x
  | .ldDtVx x => s.advance.setDT (s.readV x)
  | .ldStVx x => s.advance.setST (s.readV x)
  | .addI x => s.advance.setI (indexSum s.i (s.readV x))
  | .ldF x => s.advance.setI (glyphAddr (s.readV x))
  | .ldB x => s.advance.storeBytes s.i.toNat (bcdDigits (s.readV x))
  | .ldStore x => s.advance.storeBytes s.i.toNat (s.regsUpTo x)
  | .ldLoad x => s.advance.loadRegs s.i.toNat x

theorem Machine.State.keyStands_eq {s : State} {x : Reg} {k : Key} (h : (s.readV x).toNat = k.val)
    (wanted : Bool) :
    s.keyStands wanted x = (s.readKey k == wanted) := by
  rw [State.keyStands, (keyOperand_eq_some_iff _ k).mpr h, Option.any_some]

/-! ## When an instruction faults (60_exceptions.md R370) -/

theorem skipOnKey_completes {s : State} {x : Reg} (wanted : Bool) (i : Instr) (h : (s.readV x).toNat ≤ 0xF) :
    skipOnKey wanted x i s =
      .next (s.setPc (if s.keyStands wanted x then s.pc + 4 else s.pc + 2)) := by
  have hk : (s.readV x).toNat = (⟨(s.readV x).toNat, by omega⟩ : Key).val := rfl
  rw [skipOnKey_good wanted x i hk, State.keyStands_eq hk, State.advance_skipIf s Iff.rfl]
  rfl

theorem Machine.State.keyTaken_none {s : State} {x : Reg} (h : s.lowestPressed = none) : s.keyTaken x = s := by
  simp [State.keyTaken, h]

theorem Machine.State.keyTaken_some {s : State} {x : Reg} {k : Key} (h : s.lowestPressed = some k) :
    s.keyTaken x = s.advance.writeV x (keyByte k) := by
  simp only [State.keyTaken, h, Option.elim_some]
  rfl

theorem execLdVxK_eq (s : State) (x : Reg) : execLdVxK x s = .next (s.keyTaken x) := by
  cases h : s.lowestPressed with
  | none => rw [State.keyTaken_none h]; exact exec_ldVxK_waits x h
  | some k => rw [State.keyTaken_some h]; exact exec_ldVxK_takes x h

theorem exec_completes {i : Instr} {s : State} (h : i.ownFault s = none) :
    exec i s = .next (i.completed s) := by
  cases i
  case ret =>
    have hsp : s.sp.val ≠ 0 := by simpa [Instr.ownFault] using h
    exact exec_ret_occupied hsp
  case call nnn =>
    have hfull : s.sp.val ≠ 16 := by simpa [Instr.ownFault] using h
    have hsp : s.sp.val < 16 := by omega
    have hmin : min (s.sp.val + 1) 16 = s.sp.val + 1 := Nat.min_eq_left hsp
    simp only [exec_call_room nnn hsp, Instr.completed, dif_pos hsp, hmin]
  case seImm x nn => exact exec_seImm s x nn
  case sneImm x nn => exact exec_sneImm s x nn
  case seReg x y => exact exec_seReg s x y
  case sneReg x y => exact exec_sneReg s x y
  case skp x | sknp x =>
    refine skipOnKey_completes _ _ ?_
    simpa [Instr.ownFault] using h
  case drw x y n =>
    refine exec_drw_inside x y n ?_
    by_cases hn : n = 0
    · exact .inl hn
    · exact .inr (by simpa [Instr.ownFault, Instr.lastAccess, hn] using h)
  case ldVxK x => exact execLdVxK_eq s x
  case ldB x =>
    refine exec_ldB_inside x ?_
    simpa [Instr.ownFault, Instr.lastAccess] using h
  case ldStore x =>
    refine exec_ldStore_inside x ?_
    simpa [Instr.ownFault, Instr.lastAccess] using h
  case ldLoad x =>
    refine exec_ldLoad_inside x ?_
    simpa [Instr.ownFault, Instr.lastAccess] using h
  all_goals rfl

theorem ite_fault_eq_some_iff {p : Prop} [Decidable p] {c d : Cause} {m n : Nat} :
    (if p then some (c, m) else none) = some (d, n) ↔ p ∧ c = d ∧ m = n := by
  rw [Option.ite_none_right_eq_some, Option.some.injEq, Prod.mk.injEq]

theorem drw_ownFault {x y : Reg} {n : Fin 16} {s : State} (hn : n ≠ 0) : (Instr.drw x y n).ownFault s =
    if 0xFFF < s.i.toNat + n.val - 1 then some (.dataOutOfRange, s.i.toNat + n.val - 1) else none := by
  simp only [Instr.ownFault, Instr.lastAccess, if_neg hn]

theorem drw_zero_ownFault {x y : Reg} {s : State} : (Instr.drw x y 0).ownFault s = none := rfl

theorem exec_faults {i : Instr} {s : State} {c : Cause} {info : Nat} (h : i.ownFault s = some (c, info)) :
    exec i s = .next (s.raise c info (some (encode i))) := by
  cases i
  case ret =>
    obtain ⟨hsp, rfl, rfl⟩ := ite_fault_eq_some_iff.mp h
    exact exec_ret_empty hsp
  case call nnn =>
    obtain ⟨hsp, rfl, rfl⟩ := ite_fault_eq_some_iff.mp h
    exact exec_call_full nnn hsp
  case skp x | sknp x =>
    obtain ⟨hkey, rfl, rfl⟩ := ite_fault_eq_some_iff.mp h
    exact skipOnKey_bad _ x _ hkey
  case drw x y n =>
    by_cases hn : n = 0
    · rw [hn, drw_zero_ownFault] at h
      cases h
    · obtain ⟨hlast, rfl, rfl⟩ := ite_fault_eq_some_iff.mp ((drw_ownFault hn).symm.trans h)
      exact exec_drw_outside x y n hn hlast
  case ldB x =>
    obtain ⟨hlast, rfl, rfl⟩ := ite_fault_eq_some_iff.mp h
    exact exec_ldB_outside x hlast
  case ldStore x =>
    obtain ⟨hlast, rfl, rfl⟩ := ite_fault_eq_some_iff.mp h
    exact exec_ldStore_outside x hlast
  case ldLoad x =>
    obtain ⟨hlast, rfl, rfl⟩ := ite_fault_eq_some_iff.mp h
    exact exec_ldLoad_outside x hlast
  all_goals cases h

/-- What an instruction's own fault can record: one of four causes, and an info that fits 17 bits, being SP, a
register value, or the unwrapped sum of I and a register number. -/
theorem ownFault_record {i : Instr} {s : State} {c : Cause} {info : Nat} (h : i.ownFault s = some (c, info)) :
    (c = .stackOverflow ∨ c = .stackUnderflow ∨ c = .dataOutOfRange ∨ c = .keyIndexOutOfRange) ∧
      info < 2 ^ 17 := by
  cases i
  case drw x y n =>
    by_cases hn : n = 0
    · rw [hn, drw_zero_ownFault] at h
      cases h
    · obtain ⟨-, rfl, rfl⟩ := ite_fault_eq_some_iff.mp ((drw_ownFault hn).symm.trans h)
      exact ⟨by decide, by omega⟩
  case ret | call | skp | sknp | ldB | ldStore | ldLoad =>
    obtain ⟨-, rfl, rfl⟩ := ite_fault_eq_some_iff.mp h
    exact ⟨by decide, by omega⟩
  all_goals cases h

/-- Every instruction ends in one of its two outcomes. -/
theorem exec_cases {i : Instr} {s t : State} (h : exec i s = .next t) :
    (i.ownFault s = none ∧ t = i.completed s) ∨
    ∃ c info, i.ownFault s = some (c, info) ∧ t = s.raise c info (some (encode i)) := by
  cases hown : i.ownFault s with
  | none =>
    rw [exec_completes hown] at h
    cases h
    exact .inl ⟨rfl, rfl⟩
  | some f =>
    rw [exec_faults hown] at h
    cases h
    exact .inr ⟨f.1, f.2, rfl, rfl⟩

theorem exec_answers_next (i : Instr) (s : State) : ∃ t, exec i s = .next t := by
  cases h : i.ownFault s with
  | none => exact ⟨_, exec_completes h⟩
  | some f => exact ⟨_, exec_faults h⟩

/-! ## What an instruction that completes keeps (10_state.md R39) -/

section
variable (i : Instr) (s : State)

@[simp] theorem completed_status : (i.completed s).status = s.status := by cases i <;> rfl
@[simp] theorem completed_fault : (i.completed s).fault = s.fault := by cases i <;> rfl
@[simp] theorem completed_keys : (i.completed s).keys = s.keys := by cases i <;> rfl
@[simp] theorem completed_pending : (i.completed s).pending = s.pending := by cases i <;> rfl

end

section
variable {i : Instr} {s : State}

theorem completed_i (h : i.writesIndex = false) : (i.completed s).i = s.i := by
  cases i
  case ldI | addI | ldF => cases h
  all_goals rfl

theorem completed_sp (h : i.writesSp = false) : (i.completed s).sp = s.sp := by
  cases i
  case ret | call => cases h
  all_goals rfl

theorem completed_display (h : i.writesDisplay = false) : (i.completed s).display = s.display := by
  cases i
  case cls | drw => cases h
  all_goals rfl

theorem completed_dt (h : ∀ x, i ≠ .ldDtVx x) : (i.completed s).dt = s.dt := by
  cases i
  case ldDtVx x => exact absurd rfl (h x)
  all_goals rfl

theorem completed_st (h : ∀ x, i ≠ .ldStVx x) : (i.completed s).st = s.st := by
  cases i
  case ldStVx x => exact absurd rfl (h x)
  all_goals rfl

theorem completed_draws (h : ∀ x nn, i ≠ .rnd x nn) : (i.completed s).draws = s.draws := by
  cases i
  case rnd x nn => exact absurd rfl (h x nn)
  all_goals rfl

/-- The stack changes at slot SP alone, and by 2NNN alone. -/
theorem completed_stack (h : ∀ nnn, i ≠ .call nnn) : (i.completed s).stack = s.stack := by
  cases i
  case call nnn => exact absurd rfl (h nnn)
  all_goals rfl

theorem call_completed_stack {nnn : Addr12} (h : s.sp.val < 16) (k : Fin 16) :
    ((Instr.call nnn).completed s).stack[k] = if k.val = s.sp.val then s.pc + 2 else s.stack[k] := by
  simp only [Instr.completed, dif_pos h, Fin.getElem_fin, Vector.getElem_set, eq_comm]

theorem completed_slot {k : Fin 16} (h : i.writesSlot s k = false) (hown : i.ownFault s = none) :
    (i.completed s).stack[k] = s.stack[k] := by
  cases i
  case call nnn =>
    have hsp : s.sp.val ≠ 16 := by simpa [Instr.ownFault] using hown
    rw [call_completed_stack (by omega), if_neg (by simpa [Instr.writesSlot] using h)]
  all_goals rfl

/-- Memory changes only by a store from I on, inside the memory: of the digits, or of the registers. -/
theorem completed_mem (hown : i.ownFault s = none) : (i.completed s).mem = s.mem ∨
    ∃ bs, (i.completed s).mem = s.mem.writeBytes s.i.toNat bs ∧ s.i.toNat + bs.length ≤ 0x1000 ∧
      ∀ a, i.storesTo s a = false → a < s.i.toNat ∨ s.i.toNat + bs.length ≤ a := by
  cases i
  case ldB x =>
    refine .inr ⟨bcdDigits (s.readV x), rfl, ?_, fun a ha => ?_⟩
    · have hlast : s.i.toNat + 2 ≤ 0xFFF := by simpa [Instr.ownFault, Instr.lastAccess] using hown
      rw [length_bcdDigits]
      omega
    · have hout : s.i.toNat ≤ a → s.i.toNat + 2 < a := by simpa [Instr.storesTo] using ha
      rw [length_bcdDigits]
      omega
  case ldStore x =>
    refine .inr ⟨s.regsUpTo x, rfl, ?_, fun a ha => ?_⟩
    · have hlast : s.i.toNat + x.val ≤ 0xFFF := by simpa [Instr.ownFault, Instr.lastAccess] using hown
      rw [State.length_regsUpTo]
      omega
    · have hout : s.i.toNat ≤ a → s.i.toNat + x.val < a := by simpa [Instr.storesTo] using ha
      rw [State.length_regsUpTo]
      omega
  all_goals exact .inl rfl

theorem completed_font : (i.completed s).mem.font = s.mem.font := by
  cases i
  case ldB | ldStore => exact Memory.writeBytes_font ..
  all_goals rfl

theorem completed_read (hown : i.ownFault s = none) {a : Nat} (ha : i.storesTo s a = false) :
    (i.completed s).mem.read a = s.mem.read a := by
  rcases completed_mem hown with hmem | ⟨bs, hmem, -, hout⟩
  · rw [hmem]
  · rw [hmem, Memory.read_writeBytes_outside _ _ _ _ (hout a ha)]

theorem completed_readV {r : Reg} (h : i.writesReg s r = false) : (i.completed s).readV r = s.readV r := by
  cases i
  case ldImm | addImm | ldReg | or | and | xor | rnd | ldVxDt =>
    exact (State.writeV_readV ..).trans (if_neg (by simpa [Instr.writesReg] using h))
  case addReg x _ | sub x _ | subn x _ =>
    obtain ⟨hx, hVF⟩ : r ≠ x ∧ r ≠ VF := by simpa [Instr.writesReg] using h
    simp [Instr.completed, State.writeResultThenFlag_readV, hx, hVF]
  case shr x _ | shl x _ =>
    obtain ⟨hx, hVF⟩ : r ≠ x ∧ r ≠ VF := by simpa [Instr.writesReg] using h
    simp [Instr.completed, State.writeV_readV, hx, hVF]
  case drw x y n => exact State.drawSprite_readV_ne s x y r n (by simpa [Instr.writesReg] using h)
  case ldLoad x => exact (State.loadRegs_readV ..).trans (if_neg (by simpa [Instr.writesReg] using h))
  case ldVxK x =>
    cases hk : s.lowestPressed with
    | none => simp only [Instr.completed, State.keyTaken_none hk]
    | some k =>
      have hx : r ≠ x := by
        rintro rfl
        have hnone : ∀ j, s.readKey j = false := by simpa [Instr.writesReg] using h
        exact absurd (lowestPressed_some hk).1 (by simp [hnone k])
      simp [Instr.completed, State.keyTaken_some hk, State.writeV_readV, hx]
  all_goals rfl

end

/-- Settles O13, by the two outcomes; the info fits the record's 17 bits. -/
theorem instructionsFaultExactlyAsTabled : Obligations.InstructionsFaultExactlyAsTabled := by
  intro i s
  refine ⟨fun c info h => ⟨_, exec_faults h, ?info, rfl⟩, fun h => ?completes⟩
  case info => simpa using (ownFault_record h).2
  case completes => exact ⟨_, exec_completes h, completed_status i s, completed_fault i s⟩

/-! ## The frame rule (R128) -/

theorem completed_frame {i : Instr} {s : State} (hown : i.ownFault s = none) : Frame i s (i.completed s) where
  regs _ := completed_readV
  index := completed_i
  stack _ hk := completed_slot hk hown
  sp := completed_sp
  memory _ := completed_read hown
  font := completed_font
  display := completed_display
  keys := completed_keys i s
  delay := completed_dt
  sound := completed_st
  status _ := ⟨completed_status i s, completed_fault i s⟩
  faulted hfault := absurd hown hfault
  draws := completed_draws
  pending := completed_pending i s

/-- A fault is precise: everything but the status and the record is as it was. -/
theorem raise_frame {i : Instr} {s : State} (hown : i.ownFault s ≠ none) (c : Cause) (info : Nat)
    (w : Option Word) : Frame i s (s.raise c info w) where
  regs _ _ := rfl
  index _ := rfl
  stack _ _ := rfl
  sp _ := rfl
  memory _ _ := rfl
  font := rfl
  display _ := rfl
  keys := rfl
  delay _ := rfl
  sound _ := rfl
  status hnone := absurd hnone hown
  faulted _ := rfl
  draws _ := rfl
  pending := rfl

/-- Settles O16, by the frames of the two outcomes. -/
theorem frameRule : Obligations.FrameRule := by
  intro i s t h
  rcases exec_cases h with ⟨hown, rfl⟩ | ⟨c, info, hown, rfl⟩
  · exact completed_frame hown
  · exact raise_frame (by simp [hown]) c info _

/-! ## Where `pc` stands (R127) -/

theorem ldVxK_completed_pc (s : State) (x : Reg) :
    ((Instr.ldVxK x).completed s).pc = if ∃ k, s.readKey k = true then s.pc + 2 else s.pc := by
  cases h : s.lowestPressed with
  | none =>
    have hnone := (lowestPressed_none_iff s).mp h
    simp [Instr.completed, State.keyTaken_none h, hnone]
  | some k =>
    rw [if_pos ⟨k, (lowestPressed_some h).1⟩]
    simp only [Instr.completed, State.keyTaken_some h, State.writeV_pc, State.advance_pc]

/-- Settles O15, by the state each instruction completes in. -/
theorem pcAfterEachInstruction : Obligations.PcAfterEachInstruction := by
  intro i s t h hown
  obtain rfl : i.completed s = t := by
    rw [exec_completes hown] at h
    exact Host.Outcome.next.inj h
  cases i
  case jp | call => exact toNat_zext16 _
  case jpV0 => exact toNat_offsetTarget _ _
  case ret =>
    intro k hk
    simp [Instr.completed, ← hk]
  case ldVxK x => exact ldVxK_completed_pc s x
  case skp x =>
    intro k hk
    simp [Instr.completed, State.keyStands_eq hk.symm]
  case sknp x =>
    intro k hk
    cases hkey : s.readKey k <;> simp [Instr.completed, State.keyStands_eq hk.symm, hkey]
  case sneImm | sneReg => exact ite_not ..
  all_goals rfl

end Sys2Proof
end

section
/-! PROOFS. The instruction cycle (40_cycle_and_interface.md R123 to R126, 60_exceptions.md R371 to R373): all
that a STEP of a RUNNING core can do, and what its faults record. -/

namespace Sys2Proof

open Machine

/-! ## The four ends of a STEP -/

theorem cycle_fetched {s : State} {i : Instr} (h : s.status = .running) (hf : s.fetch? = some (encode i)) :
    cycle s = exec i s :=
  cycle_exec h hf (decodeWord_encode i)

theorem encode_injective {i j : Instr} (h : encode i = encode j) : i = j := by
  have hd := decodeWord_encode i
  rw [h, decodeWord_encode] at hd
  exact (Except.ok.inj hd).symm

theorem decodeWord_illegal_or_encoded (w : Word) :
    decodeWord w = .error (.illegal w) ∨ ∃ i, w = encode i := by
  cases h : decodeWord w with
  | error e => exact .inl (congrArg _ (decodeWord_error_iff.mp h).2)
  | ok i => exact .inr ⟨i, (decodeWord_ok_iff_encode.mp h).symm⟩

/-- How a STEP of a RUNNING core ends: it faults, before or in the instruction, or completes the instruction. -/
inductive StepEnd (s t : State) : Prop
  | noFetch (hf : s.fetch? = none) (ht : t = s.raise .fetchOutOfRange s.pc.toNat none)
  | illegal (w : Word) (hf : s.fetch? = some w) (hd : decodeWord w = .error (.illegal w))
      (ht : t = s.raise .illegalInstruction w.toNat (some w))
  | faulted (i : Instr) (c : Cause) (info : Nat) (hf : s.fetch? = some (encode i))
      (hown : i.ownFault s = some (c, info)) (ht : t = s.raise c info (some (encode i)))
  | completed (i : Instr) (hf : s.fetch? = some (encode i)) (hown : i.ownFault s = none)
      (ht : t = i.completed s)

theorem stepEnd_of_cycle {s t : State} (hs : s.status = .running) (h : cycle s = .next t) : StepEnd s t := by
  cases hf : s.fetch? with
  | none =>
    rw [cycle_noFetch hs hf] at h
    exact .noFetch hf (Host.Outcome.next.inj h).symm
  | some w =>
    rcases decodeWord_illegal_or_encoded w with hd | ⟨i, rfl⟩
    · rw [cycle_illegal hs hf hd] at h
      exact .illegal w hf hd (Host.Outcome.next.inj h).symm
    · rw [cycle_fetched hs hf] at h
      rcases exec_cases h with ⟨hown, ht⟩ | ⟨c, info, hown, ht⟩
      · exact .completed i hf hown ht
      · exact .faulted i c info hf hown ht

theorem cycle_answers_next (s : State) : ∃ t, cycle s = .next t := by
  cases hs : s.status with
  | halted => exact ⟨s, cycle_halted hs⟩
  | running =>
    cases hf : s.fetch? with
    | none => exact ⟨_, cycle_noFetch hs hf⟩
    | some w =>
      rcases decodeWord_illegal_or_encoded w with hd | ⟨i, rfl⟩
      · exact ⟨_, cycle_illegal hs hf hd⟩
      · exact cycle_fetched hs hf ▸ exec_answers_next i s

/-! ## What a STEP runs, and the two faults before an instruction -/

theorem decode_pair_iff {hi lo : Byte} {i : Instr} :
    decode [hi, lo] = .ok (i, []) ↔ decodeWord (wordOfBytes hi lo) = .ok i := by
  simp only [decode]
  cases decodeWord (wordOfBytes hi lo) <;> simp

/-- Settles O7: the two bytes at `pc` are the fetched word, high byte first. -/
theorem stepRunsTheDecodedInstruction : Obligations.StepRunsTheDecodedInstruction := fun _ _ hp hs hpc hd =>
  (step_nothingPending hp).trans (cycle_exec hs (fetch?_inside hpc) (decode_pair_iff.mp hd))

/-- The record's 17 bits hold any 16-bit word. -/
theorem toNat_info (w : Word) : (BitVec.ofNat 17 w.toNat).toNat = w.toNat :=
  Nat.mod_eq_of_lt (by omega)

/-- Where no word can be fetched, a step with nothing pending is the fetch fault. -/
theorem step_noFetch {s : State} (hp : s.pending = []) (hs : s.status = .running)
    (hpc : 0xFFF < s.pc.toNat + 1) : step s = .next (s.raise .fetchOutOfRange s.pc.toNat none) :=
  (step_nothingPending hp).trans (cycle_noFetch hs (fetch?_outside hpc))

/-- Settles O8, by the fetch beyond the memory; a 16-bit `pc` fits the record's info. -/
theorem fetchBeyondMemoryFaults : Obligations.FetchBeyondMemoryFaults := by
  intro s hp hs hpc
  refine ⟨_, step_noFetch hp hs hpc, rfl, toNat_info s.pc⟩

/-- Settles O9: by the table such a word is illegal. -/
theorem illegalWordFaults : Obligations.IllegalWordFaults := by
  intro s w hp hs hpc hw hrows
  have hf : s.fetch? = some w := hw ▸ fetch?_inside hpc
  have hd : decodeWord w = .error (.illegal w) := (decodeFollowsTheOpcodeTable w).2.mpr hrows
  exact ⟨_, (step_nothingPending hp).trans (cycle_illegal hs hf hd), rfl, toNat_info w⟩

/-! ## Precise faults (R126, R371, R373) -/

theorem ownFault_cause_ne_none {i : Instr} {s : State} {c : Cause} {info : Nat}
    (h : i.ownFault s = some (c, info)) : c ≠ .none := by
  obtain ⟨rfl | rfl | rfl | rfl, -⟩ := ownFault_record h <;> decide

/-- Settles O12: each end that halts the core is a fault raised at the state before the STEP. -/
theorem faultsArePrecise : Obligations.FaultsArePrecise := by
  intro s t hp hs hstep ht
  rw [step_nothingPending hp] at hstep
  cases stepEnd_of_cycle hs hstep with
  | noFetch hf h => subst h; exact ⟨rfl, rfl, nofun, hf.symm⟩
  | illegal w hf hd h => subst h; exact ⟨rfl, rfl, nofun, hf.symm⟩
  | faulted i c info hf hown h => subst h; exact ⟨rfl, rfl, ownFault_cause_ne_none hown, hf.symm⟩
  | completed i hf hown h =>
    rw [h, completed_status, hs] at ht
    cases ht

/-- Settles O14: the first three ends halt the core, the fourth leaves it RUNNING, and what was fetched tells
which of them it is. -/
theorem whenAStepHalts : Obligations.WhenAStepHalts := by
  intro s t hp hs hstep
  rw [step_nothingPending hp] at hstep
  cases stepEnd_of_cycle hs hstep with
  | noFetch hf h => simp [h, hf]
  | illegal w hf hd h => simp [h, hf, hd]
  | faulted i c info hf hown h =>
    exact iff_of_true (by rw [h]; rfl) (.inr (.inr ⟨i, hf, by simp [hown]⟩))
  | completed i hf hown h =>
    refine iff_of_false (by simp [h, hs]) ?_
    rintro (hnone | ⟨w, hw, hd⟩ | ⟨j, hj, hfault⟩)
    · simp [hf] at hnone
    · obtain rfl : encode i = w := Option.some.inj (hf.symm.trans hw)
      simp [decodeWord_encode] at hd
    · obtain rfl : i = j := encode_injective (Option.some.inj (hf.symm.trans hj))
      exact hfault hown

end Sys2Proof
end

section
/-! PROOFS. The host's operations (40_cycle_and_interface.md R120 to R133, 60_exceptions.md R374, R385, R387,
70_reset_and_hazards.md R420): the equation of each, all that one can do to the state, and the pending list. -/

namespace Sys2Proof.Machine

/-! ## One equation per operation -/

theorem perform_reset (s : State) : perform .reset s = .next (s.resetCore, .ok) := rfl

theorem perform_readSound (s : State) : perform .readSound s = .next (s, .sound s.st s.soundOn) := rfl

theorem perform_readStatus (s : State) : perform .readStatus s = .next (s, .status s.status s.fault) := rfl

theorem perform_step {s t : State} (h : cycle s = .next t) : perform .step s = .next (t, stepReply s t) := by
  simp only [perform, h]

theorem perform_load_fits {s : State} {data : List Byte} (hs : s.status = .running)
    (h : imageFits data = true) : perform (.load data) s = .next (s.storeBytes 0x200 data, .ok) := by
  simp [perform, hs, h]

theorem perform_key_valid {s : State} (k : Key) (pressed : Bool) (hs : s.status = .running) :
    perform (.key k.val pressed) s = .next (s.setKey k pressed, .ok) := by
  simp [perform, hs]

theorem perform_timerTick {s : State} (hs : s.status = .running) :
    perform .timerTick s = .next (s.tickTimers, .ticked s.soundExpires) := by
  simp [perform, hs]

/-- Settles O52, operation by operation: a read or a rejection answers the state it was given, and a STEP of a
HALTED core is rejected. -/
theorem haltedAcceptsOnlyResetAndReads : Obligations.HaltedAcceptsOnlyResetAndReads := by
  intro s op hs hop
  cases op with
  | reset => exact absurd rfl hop
  | readDisplay => exact ⟨_, perform_readDisplay s, fun h => absurd rfl h⟩
  | readSound => exact ⟨_, perform_readSound s, fun _ h => absurd rfl h⟩
  | readStatus => exact ⟨_, perform_readStatus s, fun _ _ h => absurd rfl h⟩
  | step => exact ⟨_, perform_step (cycle_halted hs), fun _ _ _ => by simp only [stepReply, hs]⟩
  | load data | key index pressed | timerTick =>
    exact ⟨.rejected .halted, by simp only [perform, hs], fun _ _ _ => rfl⟩

theorem perform_rejected_halted {s : State} {op : HostOp} (hs : s.status = .halted) (hreset : op ≠ .reset)
    (hdisplay : op ≠ .readDisplay) (hsound : op ≠ .readSound) (hstatus : op ≠ .readStatus) :
    perform op s = .next (s, .rejected .halted) := by
  obtain ⟨reply, h, hrejected⟩ := haltedAcceptsOnlyResetAndReads s op hs hreset
  rw [h, hrejected hdisplay hsound hstatus]

/-! ## All that an operation can do -/

/-- What an operation does to the state: nothing (the reads and the rejections), or its effect. -/
inductive OpEnd (op : HostOp) (s t : State) : Prop
  | unchanged (ht : t = s)
  | reset (hop : op = .reset) (ht : t = s.resetCore)
  | cycled (hop : op = .step) (ht : cycle s = .next t)
  | loaded (hs : s.status = .running) (data : List Byte) (hfits : imageFits data = true)
      (ht : t = s.storeBytes 0x200 data)
  | keySet (hs : s.status = .running) (k : Key) (pressed : Bool) (ht : t = s.setKey k pressed)
  | ticked (hs : s.status = .running) (ht : t = s.tickTimers)

theorem perform_answers_running {s : State} (hs : s.status = .running) (op : HostOp) :
    ∃ t reply, perform op s = .next (t, reply) ∧ OpEnd op s t := by
  cases op with
  | reset => exact ⟨_, _, perform_reset s, .reset rfl rfl⟩
  | readDisplay => exact ⟨_, _, perform_readDisplay s, .unchanged rfl⟩
  | readSound => exact ⟨_, _, perform_readSound s, .unchanged rfl⟩
  | readStatus => exact ⟨_, _, perform_readStatus s, .unchanged rfl⟩
  | step =>
    obtain ⟨t, ht⟩ := cycle_answers_next s
    exact ⟨t, _, perform_step ht, .cycled rfl ht⟩
  | load data =>
    cases hfits : imageFits data with
    | true => exact ⟨_, _, perform_load_fits hs hfits, .loaded hs data hfits rfl⟩
    | false => exact ⟨_, _, perform_load_tooLarge hs hfits, .unchanged rfl⟩
  | key index pressed =>
    by_cases hk : index < 16
    · exact ⟨_, _, perform_key_valid ⟨index, hk⟩ pressed hs, .keySet hs _ pressed rfl⟩
    · exact ⟨_, _, perform_key_invalid pressed hs hk, .unchanged rfl⟩
  | timerTick => exact ⟨_, _, perform_timerTick hs, .ticked hs rfl⟩

/-- Every operation answers, and its effect is one of `OpEnd`; while HALTED, RESET's is the only effect. -/
theorem perform_answers (op : HostOp) (s : State) :
    ∃ t reply, perform op s = .next (t, reply) ∧ OpEnd op s t := by
  cases hs : s.status with
  | running => exact perform_answers_running hs op
  | halted =>
    by_cases hop : op = .reset
    · exact ⟨_, _, hop ▸ perform_reset s, .reset hop rfl⟩
    · obtain ⟨reply, h, -⟩ := haltedAcceptsOnlyResetAndReads s op hs hop
      exact ⟨s, reply, h, .unchanged rfl⟩

/-- Settles O11: a STEP answers a next state, and so does every pending operation. -/
theorem everyStepAnswersNext : Obligations.EveryStepAnswersNext := by
  intro s
  cases hp : s.pending with
  | nil => exact step_nothingPending hp ▸ cycle_answers_next s
  | cons op later =>
    obtain ⟨t, reply, h, -⟩ := perform_answers op { s with pending := later }
    exact ⟨t, (step_pending hp).trans (performState_next h)⟩

/-! ## The pending operations (R121) -/

theorem cycle_pending {s t : State} (h : cycle s = .next t) : t.pending = s.pending := by
  cases hs : s.status with
  | halted =>
    rw [cycle_halted hs] at h
    cases h; rfl
  | running =>
    cases stepEnd_of_cycle hs h with
    | noFetch _ ht | illegal _ _ _ ht | faulted _ _ _ _ _ ht => subst ht; rfl
    | completed i _ _ ht => subst ht; exact completed_pending i s

theorem OpEnd.pending {op : HostOp} {s t : State} (h : OpEnd op s t) : t.pending = s.pending := by
  cases h with
  | unchanged ht | reset _ ht | loaded _ _ _ ht | keySet _ _ _ ht | ticked _ ht => subst ht; rfl
  | cycled _ ht => exact cycle_pending ht

/-- Settles O55: the step hands the oldest operation a state that holds the rest, which no operation touches. -/
theorem pendingOperationsRunInOrder : Obligations.PendingOperationsRunInOrder := by
  intro s op later hp
  obtain ⟨t, reply, h, hend⟩ := perform_answers op { s with pending := later }
  exact ⟨t, reply, h, (step_pending hp).trans (performState_next h), hend.pending⟩

/-! ## HALTED (R374) -/

theorem step_halted {s : State} (hs : s.status = .halted) (h : HostOp.reset ∉ s.pending) :
    step s = .next { s with pending := s.pending.tail } := by
  cases hp : s.pending with
  | nil => rw [step_nothingPending hp, cycle_halted hs, List.tail_nil, ← hp]
  | cons op later =>
    obtain ⟨reply, hperf, -⟩ := haltedAcceptsOnlyResetAndReads { s with pending := later } op hs
      (by rintro rfl; simp [hp] at h)
    rw [step_pending hp, performState_next hperf, List.tail_cons]

/-- Settles O53, by induction on the number of steps. -/
theorem haltedStaysUntilReset : Obligations.HaltedStaysUntilReset := by
  intro k
  induction k with
  | zero => exact fun s _ _ => rfl
  | succ k ih =>
    intro s hs h
    have htail : HostOp.reset ∉ s.pending.tail := fun hmem => h (List.mem_of_mem_tail hmem)
    rw [core_run_succ (step_halted hs h), ih { s with pending := s.pending.tail } hs htail, List.drop_tail]

/-! ## What each operation answers -/

/-- Settles O54, by the statuses before and after the cycle. -/
theorem stepReplies : Obligations.StepReplies := by
  intro s
  obtain ⟨t, ht⟩ := cycle_answers_next s
  refine ⟨t, _, perform_step ht, ht, fun hs => ?halted, fun hs hr => ?ok, fun hs hh => ?fault⟩
  case halted =>
    rw [cycle_halted hs] at ht
    cases ht
    simp [stepReply, hs]
  case ok => simp only [stepReply, hs, hr]
  case fault => simp only [stepReply, hs, hh]

theorem toNat_countDown (b : Byte) : (countDown b).toNat = b.toNat - 1 := by
  unfold countDown
  split
  · next h => simp [h]
  · next h => bv_omega

/-- Settles O45: each timer counts down by itself. -/
theorem timerTickCountsBothDown : Obligations.TimerTickCountsBothDown := by
  intro s
  refine ⟨fun hs => ?_, fun hs => ?_⟩
  · refine ⟨_, _, perform_timerTick hs, rfl, toNat_countDown _, toNat_countDown _, ?_⟩
    rw [State.soundExpires, beq_iff_eq]
    exact BitVec.toNat_inj.symm
  · exact perform_rejected_halted hs nofun nofun nofun nofun

/-- Settles O46, by the write of several bytes. -/
theorem loadCopiesTheImage : Obligations.LoadCopiesTheImage := fun _ _ hs hlen =>
  ⟨_, perform_load_fits hs (decide_eq_true (by omega)), rfl, Memory.writeBytes_font ..,
    fun k hk => Memory.read_writeBytes_inside _ _ _ _ hk,
    fun a ha => Memory.read_writeBytes_outside _ _ _ _ ha⟩

theorem State.setKey_readKey (s : State) (k j : Key) (pressed : Bool) :
    (s.setKey k pressed).readKey j = if j = k then pressed else s.readKey j := by
  simp only [State.readKey, State.setKey_keys, Fin.getElem_fin, Vector.getElem_set, Fin.ext_iff, eq_comm]

/-- Settles O48, by the write of one slot. -/
theorem keySetsItsSlot : Obligations.KeySetsItsSlot := fun s k pressed hs =>
  ⟨_, perform_key_valid k pressed hs, rfl, fun j => s.setKey_readKey k j pressed⟩

/-- Settles O50, by the equations of the two reads. -/
theorem readSoundAndStatus : Obligations.ReadSoundAndStatus := by
  intro s
  refine ⟨⟨_, perform_readSound s, ?on⟩, perform_readStatus s⟩
  case on =>
    rw [State.soundOn, bne_iff_ne]
    exact BitVec.toNat_inj.not.symm

/-! ## RESET -/

theorem resetWith_read_font (font : Vector Byte 80) {a : Nat} (h : a < 80) :
    (State.resetWith font).mem.read a = font[a] := dif_pos h

theorem resetWith_read_zero (font : Vector Byte 80) {a : Nat} (h : 80 ≤ a) :
    (State.resetWith font).mem.read a = 0 := dif_neg (Nat.not_lt.mpr h)

theorem resetCore_congr {s u : State} (hfont : u.mem.font = s.mem.font) (hdraws : u.draws = s.draws)
    (hpending : u.pending = s.pending) : u.resetCore = s.resetCore := by
  simp only [State.resetCore, hfont, hdraws, hpending]

/-- Settles O51: the reset state is written out in `State.resetWith`, and of the old state only the parameters'
carriers enter it. -/
theorem resetRestoresEverything : Obligations.ResetRestoresEverything := by
  intro s
  refine ⟨s.resetCore, perform_reset s, ?regs, rfl, rfl, rfl, ?stack, fun a h => resetWith_read_font _ h,
    fun a h => resetWith_read_zero _ h, Display.clear_pixel, ?keys, rfl, rfl, rfl, rfl, rfl, rfl, rfl, ?same⟩
  case regs => exact fun x => Vector.getElem_replicate _
  case stack => exact fun k => Vector.getElem_replicate _
  case keys => exact fun k => Vector.getElem_replicate _
  case same =>
    exact fun u hfont hdraws hpending =>
      (perform_reset u).trans (by rw [resetCore_congr hfont hdraws hpending])

end Sys2Proof.Machine
end

section
/-! PROOFS. The invariant `State.Inv` (10_state.md R22, R34; 60_exceptions.md R370, R372): it holds at reset, and
every step keeps it. -/

namespace Sys2Proof

open Machine

/-! ## The invariant of a RUNNING state, and at reset -/

theorem Machine.State.Inv.of_running {s : State} (hmem : s.mem.wf = true) (hpc : s.pc.toNat ≤ 0x10FE)
    (hstack : ∀ k : Fin 16, (s.stack[k]).toNat ≤ 0x1000) (hs : s.status = .running)
    (hfault : s.fault = FaultRecord.cleared) : s.Inv where
  memory := hmem
  pc := hpc
  stack := hstack
  running _ := hfault
  halted h := by rw [hs] at h; cases h

/-- Settles O56: no byte is listed, `pc` is 0x200, every slot is 0, the core is RUNNING and the record cleared. -/
theorem invariantAtReset : Obligations.InvariantAtReset := by
  intro font
  refine .of_running (Memory.wf_reset font) (Nat.le_of_ble_eq_true rfl) (fun k => ?_) rfl rfl
  rw [show (State.resetWith font).stack[k] = 0 from Vector.getElem_replicate _]
  decide

theorem inv_resetCore (s : State) : s.resetCore.Inv := by
  obtain ⟨hmem, hpc, hstack, hrunning, hhalted⟩ := invariantAtReset s.mem.font
  exact .of_running hmem hpc hstack rfl rfl

/-! ## A completed instruction -/

section
variable {i : Instr} {s : State}

theorem completed_wf (hown : i.ownFault s = none) (h : s.mem.wf = true) : (i.completed s).mem.wf = true := by
  rcases completed_mem hown with hmem | ⟨bs, hmem, hlen, -⟩
  · rw [hmem, h]
  · rw [hmem, Memory.wf_writeBytes h hlen]

theorem completed_pc_le (hpc : s.pc.toNat + 1 ≤ 0xFFF) (hstack : ∀ k : Fin 16, (s.stack[k]).toNat ≤ 0x1000) :
    (i.completed s).pc.toNat ≤ 0x10FE := by
  have hadvance : (s.pc + 2).toNat ≤ 0x10FE := by bv_omega
  have hskip : (s.pc + 4).toNat ≤ 0x10FE := by bv_omega
  cases i
  case jp nnn | call nnn => exact (toNat_zext16 nnn).trans_le (by omega)
  case jpV0 nnn => exact (toNat_offsetTarget _ nnn).trans_le (by omega)
  case ret => exact (hstack ⟨s.sp.val - 1, by omega⟩).trans (by decide)
  case seImm | sneImm | seReg | sneReg | skp | sknp =>
    simp only [Instr.completed, State.setPc_pc]
    split
    · assumption
    · assumption
  case ldVxK x =>
    rw [ldVxK_completed_pc]
    split
    · exact hadvance
    · omega
  all_goals exact hadvance

theorem completed_slot_le (hown : i.ownFault s = none) (hpc : s.pc.toNat + 1 ≤ 0xFFF)
    (hstack : ∀ k : Fin 16, (s.stack[k]).toNat ≤ 0x1000) (k : Fin 16) :
    ((i.completed s).stack[k]).toNat ≤ 0x1000 := by
  cases i
  case call nnn =>
    have hsp : s.sp.val ≠ 16 := by simpa [Instr.ownFault] using hown
    rw [call_completed_stack (by omega)]
    split
    · bv_omega
    · exact hstack k
  all_goals exact hstack k

end

/-! ## A fault -/

/-- A fault raised on the fetched word is true of the state it leaves. -/
theorem Machine.State.Inv.raise {s : State} (h : s.Inv) {c : Cause} {info : Nat} {w : Option Word}
    (hexplained : (s.raise c info w).FaultExplained) : (s.raise c info w).Inv where
  memory := h.memory
  pc := h.pc
  stack := h.stack
  running := nofun
  halted _ := hexplained

theorem ownFault_raise (i : Instr) (s : State) (c : Cause) (info : Nat) (w : Option Word) :
    i.ownFault (s.raise c info w) = i.ownFault s := by
  cases i <;> rfl

theorem explained_noFetch {s : State} (hf : s.fetch? = none) :
    (s.raise .fetchOutOfRange s.pc.toNat none).FaultExplained :=
  ⟨rfl, hf.symm, hf, toNat_info s.pc⟩

theorem explained_illegal {s : State} {w : Word} (hf : s.fetch? = some w)
    (hd : decodeWord w = .error (.illegal w)) :
    (s.raise .illegalInstruction w.toNat (some w)).FaultExplained :=
  ⟨rfl, hf.symm, w, hf, hd, toNat_info w⟩

theorem explained_ownFault {s : State} {i : Instr} {c : Cause} {info : Nat} (hf : s.fetch? = some (encode i))
    (hown : i.ownFault s = some (c, info)) : (s.raise c info (some (encode i))).FaultExplained := by
  have hinfo : (BitVec.ofNat 17 info).toNat = info := Nat.mod_eq_of_lt (ownFault_record hown).2
  have hraised : i.ownFault (s.raise c info (some (encode i))) = some (c, (BitVec.ofNat 17 info).toNat) := by
    rw [ownFault_raise, hinfo, hown]
  refine ⟨rfl, hf.symm, ?_⟩
  obtain ⟨rfl | rfl | rfl | rfl, -⟩ := ownFault_record hown <;> exact ⟨i, hf, hraised⟩

/-! ## A cycle, an operation, a step -/

theorem cycle_inv {s t : State} (h : s.Inv) (hstep : cycle s = .next t) : t.Inv := by
  cases hs : s.status with
  | halted =>
    rw [cycle_halted hs] at hstep
    exact Host.Outcome.next.inj hstep ▸ h
  | running =>
    cases stepEnd_of_cycle hs hstep with
    | noFetch hf ht => exact ht ▸ h.raise (explained_noFetch hf)
    | illegal w hf hd ht => exact ht ▸ h.raise (explained_illegal hf hd)
    | faulted i c info hf hown ht => exact ht ▸ h.raise (explained_ownFault hf hown)
    | completed i hf hown ht =>
      subst ht
      have hpc := fetch?_some_pc hf
      exact .of_running (completed_wf hown h.memory) (completed_pc_le hpc h.stack)
        (completed_slot_le hown hpc h.stack) ((completed_status i s).trans hs)
        ((completed_fault i s).trans (h.running hs))

theorem Machine.OpEnd.inv {op : HostOp} {s t : State} (h : s.Inv) (hend : OpEnd op s t) : t.Inv := by
  cases hend with
  | unchanged ht => exact ht ▸ h
  | reset _ ht => exact ht ▸ inv_resetCore s
  | cycled _ hc => exact cycle_inv h hc
  | loaded hs data hfits ht =>
    subst ht
    exact .of_running (Memory.wf_writeBytes h.memory (of_decide_eq_true hfits)) h.pc h.stack hs (h.running hs)
  | keySet hs k pressed ht => subst ht; exact .of_running h.memory h.pc h.stack hs (h.running hs)
  | ticked hs ht => subst ht; exact .of_running h.memory h.pc h.stack hs (h.running hs)

/-- The pending operations are no part of the invariant. -/
theorem Machine.State.Inv.withPending {s : State} (h : s.Inv) (later : List HostOp) :
    State.Inv { s with pending := later } where
  memory := h.memory
  pc := h.pc
  stack := h.stack
  running := h.running
  halted := h.halted

/-- Settles O57: a step is a cycle or the oldest operation, and both keep the invariant. -/
theorem everyStepKeepsTheInvariant : Obligations.EveryStepKeepsTheInvariant := by
  intro s t h hstep
  cases hp : s.pending with
  | nil => exact cycle_inv h ((step_nothingPending hp).symm.trans hstep)
  | cons op later =>
    obtain ⟨u, reply, hperf, hend⟩ := perform_answers op { s with pending := later }
    rw [step_pending hp, performState_next hperf] at hstep
    cases hstep
    exact hend.inv (h.withPending later)

end Sys2Proof
end

section
/-! PROOFS. What cannot be observed: stale stack slots (10_state.md R36) and, by an instruction, ST (R33). -/

namespace Sys2Proof

open Machine

/-! ## ST (R33) -/

theorem ownFault_setST (i : Instr) (s : State) (b : Byte) : i.ownFault (s.setST b) = i.ownFault s := by
  cases i <;> rfl

/-- Only FX18 writes ST, and with a value that ST does not enter. -/
theorem completed_setST (i : Instr) (s : State) (b : Byte) :
    i.completed (s.setST b) = (i.completed s).setST b ∨ i.completed (s.setST b) = i.completed s := by
  cases i
  case ldStVx x => exact .inr rfl
  all_goals exact .inl rfl

/-- Settles O44, by the two outcomes, neither of which ST enters. -/
theorem noInstructionReadsTheSoundTimer : Obligations.NoInstructionReadsTheSoundTimer := by
  intro i s t b h
  have hown := ownFault_setST i s b
  rcases exec_cases h with ⟨hnone, rfl⟩ | ⟨c, info, hfault, rfl⟩
  · rw [exec_completes (hown.trans hnone)]
    rcases completed_setST i s b with hb | hb
    · exact ⟨b, .inl rfl, congrArg _ hb⟩
    · exact ⟨_, .inr rfl, congrArg _ hb⟩
  · exact ⟨b, .inl rfl, exec_faults (hown.trans hfault)⟩

/-! ## Stale slots: the same state with another stack (R36) -/

/-- `s` with the stack `σ`. -/
def Machine.State.withStack (s : State) (σ : Vector Word 16) : State := { s with stack := σ }

/-- `σ` holds in the occupied slots what the stack of `s` holds there. -/
def Machine.State.OccupiedAgree (s : State) (σ : Vector Word 16) : Prop :=
  ∀ k : Fin 16, k.val < s.sp.val → σ[k] = s.stack[k]

theorem sameButStale_iff {s t : State} :
    s.SameButStale t ↔ ∃ σ, s.OccupiedAgree σ ∧ t = s.withStack σ := by
  constructor
  · rintro ⟨ht, h⟩
    exact ⟨t.stack, h, ht⟩
  · rintro ⟨σ, h, rfl⟩
    exact ⟨rfl, h⟩

section
variable {s : State} {σ : Vector Word 16}

theorem Machine.State.OccupiedAgree.sameButStale (h : s.OccupiedAgree σ) : s.SameButStale (s.withStack σ) :=
  sameButStale_iff.mpr ⟨σ, h, rfl⟩

theorem ownFault_withStack (i : Instr) (s : State) (σ : Vector Word 16) :
    i.ownFault (s.withStack σ) = i.ownFault s := by
  cases i <;> rfl

/-- 00EE reads the slot below SP, which is occupied, and 2NNN overwrites the slot at SP; the others leave the
stack alone. -/
theorem completed_sameButStale {i : Instr} (h : s.OccupiedAgree σ) (hown : i.ownFault s = none) :
    (i.completed s).SameButStale (i.completed (s.withStack σ)) := by
  cases i
  case ret =>
    have hsp : s.sp.val ≠ 0 := by simpa [Instr.ownFault] using hown
    have htop : σ[s.sp.val - 1] = s.stack[s.sp.val - 1] := h ⟨s.sp.val - 1, by omega⟩ (Nat.sub_one_lt hsp)
    refine ⟨?_, fun k hk => h k ?_⟩
    · simp only [Instr.completed, State.withStack, htop]
    · simp only [Instr.completed] at hk
      omega
  case call nnn =>
    have hsp : s.sp.val ≠ 16 := by simpa [Instr.ownFault] using hown
    refine ⟨rfl, fun k hk => ?_⟩
    have hroom : s.sp.val < 16 := by omega
    rw [call_completed_stack (s := s.withStack σ) hroom, call_completed_stack hroom]
    change (if k.val = s.sp.val then s.pc + 2 else σ[k]) = if k.val = s.sp.val then s.pc + 2 else s.stack[k]
    split
    · rfl
    · next hne =>
      simp only [Instr.completed] at hk
      exact h k (by omega)
  all_goals exact ⟨rfl, h⟩

theorem cycle_sameButStale (h : s.OccupiedAgree σ) :
    ∃ s' t', cycle s = .next s' ∧ cycle (s.withStack σ) = .next t' ∧ s'.SameButStale t' := by
  cases hs : s.status with
  | halted => exact ⟨_, _, cycle_halted hs, cycle_halted hs, h.sameButStale⟩
  | running =>
    cases hf : s.fetch? with
    | none => exact ⟨_, _, cycle_noFetch hs hf, cycle_noFetch hs hf, rfl, h⟩
    | some w =>
      rcases decodeWord_illegal_or_encoded w with hd | ⟨i, rfl⟩
      · exact ⟨_, _, cycle_illegal hs hf hd, cycle_illegal hs hf hd, rfl, h⟩
      · have hown := ownFault_withStack i s σ
        rw [cycle_fetched hs hf, cycle_fetched (s := s.withStack σ) hs hf]
        cases hi : i.ownFault s with
        | none =>
          exact ⟨_, _, exec_completes hi, exec_completes (hown.trans hi), completed_sameButStale h hi⟩
        | some f => exact ⟨_, _, exec_faults hi, exec_faults (hown.trans hi), rfl, h⟩

theorem stepReply_sameButStale {s' t' : State} (h : s'.SameButStale t') :
    stepReply (s.withStack σ) t' = stepReply s s' := by
  obtain ⟨τ, -, rfl⟩ := sameButStale_iff.mp h
  rfl

/-- The two states answer alike, and leave two states that differ in stale slots alone. -/
def AnswerAlike (op : HostOp) (s t : State) : Prop :=
  ∃ s' t' reply, perform op s = .next (s', reply) ∧ perform op t = .next (t', reply) ∧ s'.SameButStale t'

theorem perform_sameButStale_halted {op : HostOp} (h : s.OccupiedAgree σ) (hs : s.status = .halted)
    (hreset : op ≠ .reset) (hdisplay : op ≠ .readDisplay) (hsound : op ≠ .readSound)
    (hstatus : op ≠ .readStatus) : AnswerAlike op s (s.withStack σ) :=
  ⟨_, _, _, perform_rejected_halted hs hreset hdisplay hsound hstatus,
    perform_rejected_halted hs hreset hdisplay hsound hstatus, h.sameButStale⟩

theorem perform_sameButStale (h : s.OccupiedAgree σ) (op : HostOp) :
    AnswerAlike op s (s.withStack σ) := by
  cases op with
  | reset => exact ⟨_, _, _, perform_reset s, perform_reset _, rfl, fun _ _ => rfl⟩
  | readDisplay => exact ⟨_, _, _, perform_readDisplay s, perform_readDisplay _, h.sameButStale⟩
  | readSound => exact ⟨_, _, _, perform_readSound s, perform_readSound _, h.sameButStale⟩
  | readStatus => exact ⟨_, _, _, perform_readStatus s, perform_readStatus _, h.sameButStale⟩
  | step =>
    obtain ⟨s', t', hs', ht', hst⟩ := cycle_sameButStale h
    exact ⟨s', t', _, perform_step hs', (perform_step ht').trans (by rw [stepReply_sameButStale hst]), hst⟩
  | load data =>
    cases hs : s.status with
    | halted => exact perform_sameButStale_halted h hs nofun nofun nofun nofun
    | running =>
      cases hfits : imageFits data with
      | true => exact ⟨_, _, _, perform_load_fits hs hfits, perform_load_fits hs hfits, rfl, h⟩
      | false => exact ⟨_, _, _, perform_load_tooLarge hs hfits, perform_load_tooLarge hs hfits, rfl, h⟩
  | key index pressed =>
    cases hs : s.status with
    | halted => exact perform_sameButStale_halted h hs nofun nofun nofun nofun
    | running =>
      by_cases hk : index < 16
      · have hkey := fun u (hu : State.status u = .running) => perform_key_valid ⟨index, hk⟩ pressed hu
        exact ⟨_, _, _, hkey s hs, hkey _ hs, rfl, h⟩
      · exact ⟨_, _, _, perform_key_invalid pressed hs hk, perform_key_invalid pressed hs hk, rfl, h⟩
  | timerTick =>
    cases hs : s.status with
    | halted => exact perform_sameButStale_halted h hs nofun nofun nofun nofun
    | running => exact ⟨_, _, _, perform_timerTick hs, perform_timerTick hs, rfl, h⟩

end

/-- Settles O58: a step is a cycle or the oldest operation, the pending list being the same in both states. -/
theorem staleSlotsAreUnobservable : Obligations.StaleSlotsAreUnobservable := by
  intro s t hst
  obtain ⟨σ, h, rfl⟩ := sameButStale_iff.mp hst
  refine ⟨?_, perform_sameButStale h⟩
  cases hp : s.pending with
  | nil =>
    rw [step_nothingPending hp, step_nothingPending (s := s.withStack σ) hp]
    exact cycle_sameButStale h
  | cons op later =>
    obtain ⟨s', t', reply, hs', ht', hst'⟩ := perform_sameButStale (s := { s with pending := later }) h op
    rw [step_pending hp, step_pending (s := s.withStack σ) hp]
    exact ⟨s', t', performState_next hs', performState_next ht', hst'⟩

end Sys2Proof
end

section
/-! PROOFS. Memory (20_memory.md, 43_index_memory.md R253 to R255): what is stored is what is fetched and loaded
back, byte order, the canonical form determines the memory, and empty memory runs as NOPs
(70_reset_and_hazards.md R430). -/

namespace Sys2Proof.Machine

/-! ## FX33, FX55 and FX65 inside the memory -/

/-- The three digits, read back as numbers. -/
theorem Memory.read_bcdDigits (m : Memory) (a : Nat) (b : Byte) :
    ((m.writeBytes a (bcdDigits b)).read a).toNat = b.toNat / 100 ∧
    ((m.writeBytes a (bcdDigits b)).read (a + 1)).toNat = b.toNat / 10 % 10 ∧
    ((m.writeBytes a (bcdDigits b)).read (a + 2)).toNat = b.toNat % 10 := by
  have hdigits := map_toNat_bcdDigits b
  simp only [bcdDigits, List.map_cons, List.map_nil, List.cons.injEq, and_true] at hdigits
  obtain ⟨h0, h1, h2⟩ := hdigits
  rw [← h0, ← h1, ← h2]
  have hread := fun k (hk : k < 3) => congrArg BitVec.toNat (m.read_writeBytes_inside a k (bcdDigits b) hk)
  exact ⟨hread 0 (by decide), hread 1 (by decide), hread 2 (by decide)⟩

/-- Settles O30: the digits are written at I, I + 1 and I + 2, and a byte is the sum of its weighted digits. -/
theorem storeDecimalDigits : Obligations.StoreDecimalDigits := by
  intro s x hi
  obtain ⟨h0, h1, h2⟩ := s.mem.read_bcdDigits s.i.toNat (s.readV x)
  refine ⟨_, exec_ldB_inside x hi, rfl, Memory.writeBytes_font .., ?sum, ?hundreds, ?tens, ?ones, ?outside⟩
  case outside =>
    intro a ha
    refine Memory.read_writeBytes_outside _ _ _ _ ?_
    rw [length_bcdDigits]
    omega
  all_goals
    simp only [State.storeBytes_mem, State.advance_mem, h0, h1, h2]
    omega

/-- Settles O31, by the write of several bytes. -/
theorem storeRegisterBlock : Obligations.StoreRegisterBlock := by
  intro s x hi
  refine ⟨_, exec_ldStore_inside x hi, rfl, Memory.writeBytes_font .., fun k hk => ?_, fun a ha => ?_⟩
  · have hlt : k.val < (s.regsUpTo x).length := by
      rw [State.length_regsUpTo]
      exact Nat.lt_succ_of_le hk
    exact (Memory.read_writeBytes_inside _ _ _ _ hlt).trans (State.getElem_regsUpTo s x k hlt)
  · refine Memory.read_writeBytes_outside _ _ _ _ ?_
    rw [State.length_regsUpTo]
    omega

/-- Settles O32, by the register file that FX65 loads. -/
theorem loadRegisterBlock : Obligations.LoadRegisterBlock := fun s x hi =>
  ⟨_, exec_ldLoad_inside x hi, rfl, fun k => State.loadRegs_readV s.advance _ x k⟩

/-- Settles O33: the load reads the bytes where the store put the registers. -/
theorem storeThenLoadRoundTrip : Obligations.StoreThenLoadRoundTrip := by
  intro s u x hi
  obtain ⟨t, hstore, hframe, -, hregs, -⟩ := storeRegisterBlock s x hi
  refine ⟨t, hstore, fun hmem hui => ?_⟩
  have hti : u.i = s.i := by rw [hui, hframe]
  obtain ⟨r, hload, -, hread⟩ := loadRegisterBlock u x (hti ▸ hi)
  refine ⟨r, hload, fun k hk => ?_⟩
  rw [hread, if_pos hk, hmem, hti, hregs k hk]

/-! ## Byte order (R65) -/

/-- Settles O10: the fetched word is big-endian, the digits stand hundreds first, and V[k] at I + k. -/
theorem byteOrder : Obligations.ByteOrder := by
  intro s
  refine ⟨fun w hw => ?word, fun x hi => ?digits, fun x k hk hi => ⟨?store, ?load⟩⟩
  case word =>
    rw [fetch?_inside (fetch?_some_pc hw)] at hw
    rw [← Option.some.inj hw, toNat_wordOfBytes]
  case digits => exact ⟨_, exec_ldB_inside x hi, s.mem.read_bcdDigits s.i.toNat (s.readV x)⟩
  case store =>
    obtain ⟨t, ht, -, -, hregs, -⟩ := storeRegisterBlock s x hi
    exact ⟨t, ht, hregs k hk⟩
  case load =>
    obtain ⟨t, ht, -, hread⟩ := loadRegisterBlock s x hi
    exact ⟨t, ht, (hread k).trans (if_pos hk)⟩

/-! ## A store is seen by the next fetch (R69) -/

theorem fetch?_storeBytes {s : State} (h : s.pc.toNat + 1 ≤ 0xFFF) (lo : Nat) (bs : List Byte) :
    (s.storeBytes lo bs).fetch? = some (wordOfBytes (s.mem.overlaid lo bs s.pc.toNat)
      (s.mem.overlaid lo bs (s.pc.toNat + 1))) := by
  rw [fetch?_inside (s := s.storeBytes lo bs) h, State.storeBytes_mem, State.storeBytes_pc,
    Memory.read_writeBytes, Memory.read_writeBytes]

theorem fetch?_advance_storeBytes {s : State} (h : s.pc.toNat + 3 ≤ 0xFFF) (lo : Nat) (bs : List Byte) :
    (s.advance.storeBytes lo bs).fetch? = some (wordOfBytes (s.mem.overlaid lo bs (s.pc.toNat + 2))
      (s.mem.overlaid lo bs (s.pc.toNat + 3))) := by
  have hpc : s.advance.pc.toNat = s.pc.toNat + 2 := by
    rw [State.advance_pc]
    bv_omega
  have := fetch?_storeBytes (s := s.advance) (by omega) lo bs
  rwa [hpc] at this

/-- Settles O34: each of the three is a write of several bytes, and a read after it is the overlaid byte. -/
theorem storeThenFetchSeesIt : Obligations.StoreThenFetchSeesIt := by
  intro s
  refine ⟨fun x hpc hi => ?_, fun x hpc hi => ?_, fun data hs hpc hlen => ?_⟩
  · exact ⟨_, exec_ldB_inside x hi, fetch?_advance_storeBytes hpc _ _⟩
  · exact ⟨_, exec_ldStore_inside x hi, fetch?_advance_storeBytes hpc _ _⟩
  · exact ⟨_, perform_load_fits hs (decide_eq_true (by omega)), fetch?_storeBytes hpc _ _⟩

/-! ## The canonical form determines the memory (log 8) -/

theorem Memory.read_of_mem {m : Memory} (h : m.wf = true) {c : Host.Cell} (hc : c ∈ m.cells) :
    m.read c.1 = c.2 := by
  obtain ⟨hsorted, -⟩ := m.wf_iff.mp h
  have hinj := List.inj_on_of_nodup_map (List.pairwise_map.mpr (hsorted.imp ne_of_lt))
  unfold Memory.read
  cases hfind : m.cells.find? (fun d => d.1 == c.1) with
  | none => simpa using List.find?_eq_none.mp hfind c hc
  | some d =>
    have haddr : d.1 = c.1 := by simpa using List.find?_some hfind
    rw [hinj (List.mem_of_find?_eq_some hfind) hc haddr]

/-- In canonical form the listed cells are the bytes inside the memory that differ from the reset contents. -/
theorem Memory.mem_cells_iff {m : Memory} (h : m.wf = true) (a : Nat) (b : Byte) :
    (a, b) ∈ m.cells ↔ a < 0x1000 ∧ m.read a = b ∧ b ≠ m.unlisted a := by
  obtain ⟨-, hall⟩ := m.wf_iff.mp h
  constructor
  · exact fun hc => ⟨(hall _ hc).1, Memory.read_of_mem h hc, (hall _ hc).2⟩
  · rintro ⟨-, hread, hne⟩
    unfold Memory.read at hread
    cases hfind : m.cells.find? (fun d => d.1 == a) with
    | none =>
      rw [hfind] at hread
      exact absurd hread.symm hne
    | some d =>
      rw [hfind] at hread
      have haddr : d.1 = a := by simpa using List.find?_some hfind
      obtain rfl : d = (a, b) := Prod.ext haddr hread
      exact List.mem_of_find?_eq_some hfind

/-- Settles O35: both lists hold the same cells, and rising addresses fix their order. -/
theorem canonicalMemoriesAreEqual : Obligations.CanonicalMemoriesAreEqual := by
  intro m n hm hn hfont hread
  have hunlisted : ∀ a, m.unlisted a = n.unlisted a := fun a => by simp only [Memory.unlisted, hfont]
  have hmem : ∀ c, c ∈ m.cells ↔ c ∈ n.cells := by
    rintro ⟨a, b⟩
    rw [Memory.mem_cells_iff hm, Memory.mem_cells_iff hn, hunlisted]
    exact and_congr_right fun ha => by rw [hread a ha]
  obtain ⟨hms, -⟩ := m.wf_iff.mp hm
  obtain ⟨hns, -⟩ := n.wf_iff.mp hn
  have hne : ∀ {c d : Host.Cell}, c.1 < d.1 → c ≠ d := fun hlt heq => by simp [heq] at hlt
  have hperm := (List.perm_ext_iff_of_nodup (hms.imp hne) (hns.imp hne)).mpr fun c => hmem c
  have hcells : m.cells = n.cells :=
    hperm.eq_of_pairwise (fun _ _ _ _ hcd hdc => absurd hcd (lt_asymm hdc)) hms hns
  exact congrArg₂ Memory.mk hfont hcells

/-! ## Empty memory runs as NOPs (R430) -/

theorem step_nop {s : State} (hp : s.pending = []) (hs : s.status = .running) (hpc : s.pc.toNat + 1 ≤ 0xFFF)
    (hhi : s.mem.read s.pc.toNat = 0) (hlo : s.mem.read (s.pc.toNat + 1) = 0) :
    step s = .next { s with pc := s.pc + 2 } := by
  have hf : s.fetch? = some (encode .nop) := by
    rw [fetch?_inside hpc, hhi, hlo]
    rfl
  rw [step_nothingPending hp, cycle_fetched hs hf]
  rfl

/-- Every byte from `pc` to the end of memory is zero. -/
def State.ZerosAhead (s : State) : Prop := ∀ a, s.pc.toNat ≤ a → a ≤ 0xFFF → s.mem.read a = 0

theorem step_zerosAhead {s : State} (hp : s.pending = []) (hs : s.status = .running) (hzero : s.ZerosAhead)
    (hpc : s.pc.toNat + 2 ≤ 0x1000) : step s = .next (s.setPc (s.pc + 2)) :=
  step_nop hp hs (by omega) (hzero _ (by omega) (by omega)) (hzero _ (by omega) (by omega))

/-- Before zero bytes, `k + n` steps are `n` steps from the state behind `k` NOPs. -/
theorem run_zerosAhead {k : Nat} : ∀ {s : State}, s.pending = [] → s.status = .running → s.ZerosAhead →
    s.pc.toNat + 2 * k ≤ 0x1000 → ∀ n, Host.Core.run core (k + n) s =
      Host.Core.run core n (s.setPc (BitVec.ofNat 16 (s.pc.toNat + 2 * k))) := by
  induction k with
  | zero =>
    intro s _ _ _ _ n
    rw [Nat.zero_add, Nat.mul_zero, Nat.add_zero, BitVec.ofNat_toNat, BitVec.setWidth_eq]
    rfl
  | succ k ih =>
    intro s hp hs hzero hpc n
    have hnext : (s.pc + 2).toNat = s.pc.toNat + 2 := by bv_omega
    have hahead : (s.setPc (s.pc + 2)).ZerosAhead := fun a ha =>
      hzero a (by rw [State.setPc_pc, hnext] at ha; omega)
    rw [Nat.succ_add k n, core_run_succ (step_zerosAhead hp hs hzero (by omega)),
      ih (s := s.setPc (s.pc + 2)) hp hs hahead (by rw [State.setPc_pc, hnext]; omega), State.setPc_pc, hnext,
      show s.pc.toNat + 2 + 2 * k = s.pc.toNat + 2 * (k + 1) by omega]
    rfl

/-- Settles O59: each step over zero bytes is a NOP, by induction up to the end of memory, where nothing can be
fetched; and the reset memory lists no byte. -/
theorem unloadedMemoryRunsAsNops : Obligations.UnloadedMemoryRunsAsNops := by
  refine ⟨fun s hp hs => ⟨step_nop hp hs, fun hzero k hpc => ?_⟩, fun font _ => resetWith_read_zero font⟩
  have hstop : (BitVec.ofNat 16 (s.pc.toNat + 2 * k)).toNat = s.pc.toNat + 2 * k :=
    Nat.mod_eq_of_lt (by omega)
  refine ⟨run_zerosAhead hp hs hzero hpc 0, fun hend => ?fault⟩
  case fault =>
    have hstep := step_noFetch (s := s.setPc (BitVec.ofNat 16 (s.pc.toNat + 2 * k))) hp hs
      (by rw [State.setPc_pc, hstop]; omega)
    rw [run_zerosAhead hp hs hzero hpc 1, core_run_succ hstep, State.setPc_pc, hstop]
    rfl

end Sys2Proof.Machine
end

section
/-! PROOFS. Control flow, the ALU, I, keys and ST: the instructions one by one (41_control_flow.md, 42_alu.md,
43_index_memory.md R251, 45_keys_timers.md). -/

namespace Sys2Proof.Machine

/-! ## Jumps, calls and returns -/

theorem nextFetchFaults_of_pc {t : State} (h : 0xFFE < t.pc.toNat) : t.NextFetchFaults := fun hs hp =>
  ⟨_, step_noFetch hp hs (by omega), rfl, rfl, rfl, rfl⟩

/-- Settles O17: each is one write of `pc`, and a fetch at an address above 0xFFE faults. -/
theorem nopAndJumps : Obligations.NopAndJumps := by
  intro s nnn
  have htarget := toNat_offsetTarget (s.readV 0) nnn
  refine ⟨rfl, ⟨_, rfl, rfl, toNat_zext16 nnn, nextFetchFaults_of_pc⟩,
    ⟨_, rfl, rfl, htarget, ?_, nextFetchFaults_of_pc⟩⟩
  exact htarget.trans_le (by omega)

/-- Settles O19, by a push that succeeds. -/
theorem callPushesTheReturnAddress : Obligations.CallPushesTheReturnAddress := by
  intro s nnn hsp
  refine ⟨_, exec_call_room nnn hsp, rfl, toNat_zext16 nnn, rfl, fun k => ?_⟩
  simp only [Fin.getElem_fin, Vector.getElem_set, eq_comm]

/-- Settles O20, by a pop that succeeds. -/
theorem returnPopsTheTopSlot : Obligations.ReturnPopsTheTopSlot := by
  intro s k hk
  have hsp : s.sp.val ≠ 0 := by omega
  have htop : s.sp.val - 1 = k.val := by omega
  refine ⟨_, exec_ret_occupied hsp, ?_, htop, nextFetchFaults_of_pc⟩
  simp only [htop, Fin.getElem_fin]

/-- Settles O21: the RET pops the slot that the CALL wrote, which was a free one. -/
theorem callThenReturn : Obligations.CallThenReturn := by
  intro s nnn hsp
  have hpc : (s.stack.set s.sp.val (s.pc + 2))[s.sp.val] = s.pc + 2 := Vector.getElem_set_self _
  refine ⟨_, _, exec_call_room nnn hsp, exec_ret_occupied (Nat.succ_ne_zero _), hpc, ?frame, ?slots⟩
  case frame => simp only [Nat.add_sub_cancel, hpc]
  case slots => exact fun k hk => Vector.getElem_set_ne hsp k.isLt (Nat.ne_of_gt hk)

/-! ## The ALU -/

theorem exec_or (s : State) (x y : Reg) :
    exec (.or x y) s = .next (s.advance.writeV x (s.readV x ||| s.readV y)) := rfl

theorem exec_and (s : State) (x y : Reg) :
    exec (.and x y) s = .next (s.advance.writeV x (s.readV x &&& s.readV y)) := rfl

theorem exec_xor (s : State) (x y : Reg) :
    exec (.xor x y) s = .next (s.advance.writeV x (s.readV x ^^^ s.readV y)) := rfl

/-- The bits of V[x] after 8XY1, 8XY2, 8XY3, and nothing else changed. -/
theorem advance_writeV_bits (s : State) (x : Reg) {b : Byte} {f : Nat → Bool}
    (hf : ∀ k < 8, b.getLsbD k = f k) :
    s.advance.writeV x b = { s with pc := s.pc + 2, v := (s.advance.writeV x b).v } ∧
      (∀ k < 8, ((s.advance.writeV x b).readV x).getLsbD k = f k) ∧
      ∀ r, r ≠ x → (s.advance.writeV x b).readV r = s.readV r := by
  refine ⟨s.advance_writeV x b, fun k hk => ?_, fun r hr => ?_⟩
  · rw [State.writeV_readV_self, hf k hk]
  · rw [State.advance_writeV_readV, if_neg hr]

/-- Settles O23: each is one register write of the bitwise result. -/
theorem bitwiseOperations : Obligations.BitwiseOperations := fun s x y =>
  ⟨⟨_, exec_or s x y, advance_writeV_bits s x fun _ _ => BitVec.getLsbD_or⟩,
    ⟨_, exec_and s x y, advance_writeV_bits s x fun _ _ => BitVec.getLsbD_and⟩,
    ⟨_, exec_xor s x y, advance_writeV_bits s x fun _ _ => BitVec.getLsbD_xor⟩⟩

theorem exec_addReg (s : State) (x y : Reg) : exec (.addReg x y) s =
    .next (s.advance.writeResultThenFlag x (addMod256 (s.readV x) (s.readV y))
      (carryFlag (s.readV x) (s.readV y))) := rfl

theorem exec_sub (s : State) (x y : Reg) : exec (.sub x y) s =
    .next (s.advance.writeResultThenFlag x (subMod256 (s.readV x) (s.readV y))
      (notBorrowFlag (s.readV x) (s.readV y))) := rfl

theorem exec_subn (s : State) (x y : Reg) : exec (.subn x y) s =
    .next (s.advance.writeResultThenFlag x (subMod256 (s.readV y) (s.readV x))
      (notBorrowFlag (s.readV y) (s.readV x))) := rfl

/-- The result stands in V[x] unless VF is V[x], the flag in VF, and nothing else has changed. -/
theorem advance_writeResultThenFlag (s : State) (x : Reg) (result flag : Byte) :
    let t := s.advance.writeResultThenFlag x result flag
    t = { s with pc := s.pc + 2, v := t.v } ∧ (x ≠ VF → t.readV x = result) ∧ t.readV VF = flag ∧
      ∀ r, r ≠ x → r ≠ VF → t.readV r = s.readV r := by
  refine ⟨rfl, fun hx => ?result, ?flag, fun r hx hVF => ?others⟩
  case result => rw [State.writeResultThenFlag_readV, if_neg hx, if_pos rfl]
  case flag => rw [State.writeResultThenFlag_readV, if_pos rfl]
  case others => rw [State.writeResultThenFlag_readV, if_neg hVF, if_neg hx, State.advance_readV]

/-- Settles O24, by the write of the sum and then the carry. -/
theorem addWithCarry : Obligations.AddWithCarry := by
  intro s x y
  obtain ⟨hframe, hresult, hflag, hothers⟩ := advance_writeResultThenFlag s x
    (addMod256 (s.readV x) (s.readV y)) (carryFlag (s.readV x) (s.readV y))
  exact ⟨_, exec_addReg s x y, hframe, fun hx => by rw [hresult hx, toNat_addMod256],
    hflag.trans (carryFlag_eq ..), hothers⟩

theorem advance_writeDifference (s : State) (x : Reg) (a b : Byte) :
    let t := s.advance.writeResultThenFlag x (subMod256 a b) (notBorrowFlag a b)
    t = { s with pc := s.pc + 2, v := t.v } ∧
      (x ≠ VF → ((t.readV x).toNat : Int) = (a.toNat - b.toNat : Int) % 256) ∧
      t.readV VF = (if b.toNat ≤ a.toNat then 1 else 0) ∧
      ∀ r, r ≠ x → r ≠ VF → t.readV r = s.readV r := by
  obtain ⟨hframe, hresult, hflag, hothers⟩ :=
    advance_writeResultThenFlag s x (subMod256 a b) (notBorrowFlag a b)
  exact ⟨hframe, fun hx => by rw [hresult hx, toNat_subMod256], hflag.trans (notBorrowFlag_eq a b), hothers⟩

/-- Settles O25: the two differ in the order of the operands alone. -/
theorem subtractWithNotBorrow : Obligations.SubtractWithNotBorrow := fun s x y =>
  ⟨⟨_, exec_sub s x y, advance_writeDifference s x (s.readV x) (s.readV y)⟩,
    ⟨_, exec_subn s x y, advance_writeDifference s x (s.readV y) (s.readV x)⟩⟩

/-- The shifts' writes: first the flag, then V[x], read after that write and shifted. -/
def State.writeFlagThenShift (s : State) (x : Reg) (flag : Byte) (shift : Byte → Byte) : State :=
  (s.writeV VF flag).writeV x (shift ((s.writeV VF flag).readV x))

theorem exec_shr (s : State) (x y : Reg) : exec (.shr x y) s =
    .next (s.advance.writeFlagThenShift x (droppedLowBit (s.readV x)) shiftRight1) := rfl

theorem exec_shl (s : State) (x y : Reg) : exec (.shl x y) s =
    .next (s.advance.writeFlagThenShift x (droppedHighBit (s.readV x)) shiftLeft1) := rfl

theorem State.writeFlagThenShift_readV_self (s : State) (x : Reg) (flag : Byte) (shift : Byte → Byte) :
    (s.writeFlagThenShift x flag shift).readV x = shift (if x = VF then flag else s.readV x) := by
  rw [State.writeFlagThenShift, State.writeV_readV_self, State.writeV_readV]

theorem State.writeFlagThenShift_readV_ne (s : State) {x r : Reg} (h : r ≠ x) (flag : Byte)
    (shift : Byte → Byte) :
    (s.writeFlagThenShift x flag shift).readV r = if r = VF then flag else s.readV r := by
  rw [State.writeFlagThenShift, State.writeV_readV, if_neg h, State.writeV_readV]

/-- With x other than F the flag stays and V[x] shifts; with x = F the flag itself is shifted. -/
theorem advance_writeFlagThenShift (s : State) (x : Reg) (flag : Byte) (shift : Byte → Byte) :
    let t := s.advance.writeFlagThenShift x flag shift
    t = { s with pc := s.pc + 2, v := t.v } ∧
      (x ≠ VF → t.readV x = shift (s.readV x) ∧ t.readV VF = flag) ∧
      (x = VF → t.readV VF = shift flag) ∧
      ∀ r, r ≠ x → r ≠ VF → t.readV r = s.readV r := by
  refine ⟨rfl, fun hx => ⟨?shifted, ?flag⟩, fun hx => ?both, fun r hr hVF => ?others⟩
  case shifted => rw [State.writeFlagThenShift_readV_self, if_neg hx, State.advance_readV]
  case flag => rw [State.writeFlagThenShift_readV_ne _ hx.symm, if_pos rfl]
  case both => rw [hx, State.writeFlagThenShift_readV_self, if_pos rfl]
  case others => rw [State.writeFlagThenShift_readV_ne _ hr, if_neg hVF, State.advance_readV]

/-- Settles O26, by the order of the two writes and the bit that each shift drops. -/
theorem shiftsWriteTheFlagFirst : Obligations.ShiftsWriteTheFlagFirst := by
  intro s x y
  refine ⟨⟨_, exec_shr s x y, ?right⟩, ⟨_, exec_shl s x y, ?left⟩⟩
  case right =>
    obtain ⟨hframe, hne, heq, hothers⟩ :=
      advance_writeFlagThenShift s x (droppedLowBit (s.readV x)) shiftRight1
    refine ⟨hframe, fun hx => ?_, fun hx => ?_, hothers⟩
    · rw [(hne hx).1, (hne hx).2]
      exact ⟨toNat_shiftRight1 _, toNat_droppedLowBit _⟩
    · rw [heq hx]
      apply BitVec.eq_of_toNat_eq
      rw [toNat_shiftRight1, toNat_droppedLowBit]
      exact Nat.div_eq_of_lt (Nat.mod_lt _ (by decide))
  case left =>
    obtain ⟨hframe, hne, heq, hothers⟩ :=
      advance_writeFlagThenShift s x (droppedHighBit (s.readV x)) shiftLeft1
    refine ⟨hframe, fun hx => ?_, fun hx => ?_, hothers⟩
    · rw [(hne hx).1, (hne hx).2]
      exact ⟨toNat_shiftLeft1 _, toNat_droppedHighBit _⟩
    · rw [heq hx, toNat_shiftLeft1, toNat_droppedHighBit, hx]
      omega

theorem exec_rnd (s : State) (x : Reg) (nn : Byte) : exec (.rnd x nn) s =
    .next (s.advance.consumeDraw.writeV x (maskedDraw (Config.rnd s.draws) nn)) := rfl

/-- Settles O27: one register write, after one draw is consumed. -/
theorem randomByteUnderMask : Obligations.RandomByteUnderMask := by
  intro s x nn
  refine ⟨_, exec_rnd s x nn, rfl, fun k hk => ?_, fun hnn => ?_, fun r hr => ?_⟩
  · rw [State.writeV_readV_self]
    exact BitVec.getLsbD_and
  · rw [State.writeV_readV_self, hnn]
    exact BitVec.and_zero
  · rw [State.writeV_readV, if_neg hr, State.consumeDraw_readV, State.advance_readV]

/-! ## I, keys and ST -/

theorem exec_addI (s : State) (x : Reg) :
    exec (.addI x) s = .next (s.advance.setI (indexSum s.i (s.readV x))) := rfl

/-- Settles O29, by one write of I. -/
theorem addToIndex : Obligations.AddToIndex := fun s x =>
  ⟨_, exec_addI s x, s.advance_setI _, toNat_indexSum s.i (s.readV x)⟩

/-- Settles O40: the key that V[x] names decides the skip. -/
theorem keySkips : Obligations.KeySkips := fun s x _ hk =>
  ⟨(skipOnKey_good true x _ hk).trans (congrArg _ (s.advance_skipIf beq_iff_eq)),
    (skipOnKey_good false x _ hk).trans (congrArg _ (s.advance_skipIf beq_iff_eq))⟩

/-- Settles O43: the instruction is one write of ST after the fetch's advance. -/
theorem setSoundTimer : Obligations.SetSoundTimer := fun _ _ => rfl

end Sys2Proof.Machine
end

section
/-! PROOFS. DXYN (44_display.md R301, R303, R304): which pixels a sprite inverts, the collision flag, the order of
drawing, and drawing twice. -/

namespace Sys2Proof.Machine

/-! ## The pixels of a sprite read from memory -/

/-- The pixels that the `n`-row sprite at I touches are those on which one of its set bits falls. -/
theorem mem_spritePixels_readBytes {s : State} {xc yc n : Nat} {py : Fin 32} {px : Fin 64} :
    (py, px) ∈ spritePixels xc yc (s.mem.readBytes s.i.toNat n) ↔ s.SpriteOn xc yc n py px := by
  simp only [mem_spritePixels, Memory.length_readBytes, Memory.getElem_readBytes, Prod.mk.injEq]
  constructor
  · rintro ⟨r, hr, c, hc, hbit, rfl, rfl⟩
    exact ⟨r, hr, c, hc, hbit, rfl, rfl⟩
  · rintro ⟨r, hr, c, hc, hbit, hy, hx⟩
    exact ⟨r, hr, c, hc, hbit, Fin.ext hy, Fin.ext hx⟩

/-- The `n`-row sprite at I, drawn with its corner at V[x], V[y], falls on the pixel. -/
def State.Covers (s : State) (x y : Reg) (n : Fin 16) (py : Fin 32) (px : Fin 64) : Prop :=
  s.SpriteOn (s.readV x).toNat (s.readV y).toNat n.val py px

/-! ## DXYN, pixel by pixel -/

section
variable {s : State} {x y : Reg} {n : Fin 16} {py : Fin 32} {px : Fin 64}

theorem sprite_length_le (s : State) (n : Fin 16) : (s.mem.readBytes s.i.toNat n.val).length ≤ 32 := by
  rw [Memory.length_readBytes]
  omega

theorem drawSprite_pixel_on (h : s.Covers x y n py px) :
    (s.drawSprite x y n).display.pixel py px = !s.display.pixel py px := by
  rw [State.drawSprite_display, (Display.draw_spec _ _ _ _ (sprite_length_le s n)).1,
    decide_eq_true (mem_spritePixels_readBytes.mpr h), Bool.bne_true]

theorem drawSprite_pixel_off (h : ¬ s.Covers x y n py px) :
    (s.drawSprite x y n).display.pixel py px = s.display.pixel py px := by
  rw [State.drawSprite_display, (Display.draw_spec _ _ _ _ (sprite_length_le s n)).1,
    decide_eq_false (mt mem_spritePixels_readBytes.mp h), Bool.bne_false]

/-- VF after DXYN is 1 exactly when a pixel under the sprite was lit. -/
theorem drawSprite_flag_iff :
    (s.drawSprite x y n).readV VF = 1 ↔ ∃ py px, s.Covers x y n py px ∧ s.display.pixel py px = true := by
  rw [State.drawSprite_readV_VF, flagByte_eq_one_iff, (Display.draw_spec _ _ _ _ (sprite_length_le s n)).2,
    List.any_eq_true]
  simp only [Prod.exists, mem_spritePixels_readBytes]
  rfl

/-- DXYN moves neither the sprite nor, unless a coordinate is VF, the place where it is drawn. -/
theorem covers_drawSprite_iff (hx : x ≠ VF) (hy : y ≠ VF) :
    (s.drawSprite x y n).advance.Covers x y n py px ↔ s.Covers x y n py px := by
  unfold State.Covers
  rw [State.advance_readV, State.advance_readV, State.drawSprite_readV_ne s x y x n hx,
    State.drawSprite_readV_ne s x y y n hy]
  rfl

end

theorem flagByte_zero_or_one (c : Bool) : flagByte c = 0 ∨ flagByte c = 1 := by
  cases c <;> decide

/-- Settles O37, by what drawing does to each pixel and to the flag. -/
theorem drawSprite : Obligations.DrawSprite := by
  intro s x y n h
  refine ⟨_, exec_drw_inside x y n h, rfl, fun py px => ⟨drawSprite_pixel_on, drawSprite_pixel_off⟩, ?flag,
    drawSprite_flag_iff, fun r hr => State.drawSprite_readV_ne s x y r n hr⟩
  case flag =>
    rw [State.advance_readV, State.drawSprite_readV_VF]
    exact flagByte_zero_or_one _

/-! ## The order of drawing, and drawing twice (R304) -/

/-- Settles O38: a sprite touches no pixel twice, and touching two pixels gives the same in either order. -/
theorem spriteBitsFallOnDifferentPixels : Obligations.SpriteBitsFallOnDifferentPixels := fun xc yc sprite hlen =>
  ⟨nodup_spritePixels xc yc sprite (by omega),
    fun _ _ hperm => hperm.foldl_eq' (fun p _ q _ k => Canvas.touch_comm k p q) _⟩

/-- Settles O39: the second DXYN finds the same sprite at the same place, so a pixel is inverted twice or not at
all. -/
theorem drawingTwiceRestores : Obligations.DrawingTwiceRestores := by
  intro s x y n hx hy hi
  have hrange : n = 0 ∨ s.i.toNat + n.val - 1 ≤ 0xFFF := .inr (by omega)
  refine ⟨_, _, exec_drw_inside x y n hrange, exec_drw_inside x y n hrange, ?display, ?flag⟩
  case display =>
    refine Display.ext_pixel fun py px => ?_
    by_cases h : s.Covers x y n py px
    · exact (drawSprite_pixel_on ((covers_drawSprite_iff hx hy).mpr h)).trans
        ((congrArg _ (drawSprite_pixel_on h)).trans (Bool.not_not _))
    · exact (drawSprite_pixel_off (mt (covers_drawSprite_iff hx hy).mp h)).trans (drawSprite_pixel_off h)
  case flag =>
    refine drawSprite_flag_iff.trans ?_
    simp only [covers_drawSprite_iff hx hy]
    rfl

end Sys2Proof.Machine
end
